-- ==== Sys2Proof/Word.lean ====
section
/-!
DEFINITION. The word types of the LS-8 core: the byte (rules R8 and R21) and the index of a general register (rule R21).
-/

namespace Sys2Proof

/-- A byte: every register, memory cell, address and the program counter hold one (rules R8, R21, R27, R40). -/
abbrev Byte := BitVec 8

/-- The index of one of the eight general registers R0 to R7 (rule R21). -/
abbrev RegId := Fin 8

end Sys2Proof
end

