-- ==== Sys2Proof/Config.lean ====
section
/-!
DEFINITION. The parameters of rule R6 that the core fixes. There is no free value: every read of the core returns a
defined byte (rule R38), and no instruction has an undefined result.
-/

namespace Sys2Proof.Config

/-- The number of memory cells, and the longest image the load interface accepts (rules R6, R40, R201). -/
def memorySize : Nat := 256

/-- The register that is the stack pointer (rules R6, R22, R23). -/
def stackPointer : RegId := 7

/-- The stack pointer after reset (rules R6, R37). -/
def stackPointerReset : Byte := 0xF4

/-- The program counter after reset (rule R37; UNVERIFIED: the spec's decision D4, log entry 9). -/
def pcReset : Byte := 0x00

/-- What every memory cell holds after reset (rule R37). -/
def memoryReset : Byte := 0x00

/-- `CALL_RETURN_OFFSET` (rule R6): CALL pushes the address of its opcode plus this
(UNVERIFIED: the spec's decision D5, conflict C1, log entry 8). -/
def callReturnOffset : Byte := 2

end Sys2Proof.Config
end

