-- ==== Sys2Proof/Syntax.lean ====
section
/-!
DEFINITION. The instructions of the LS-8 core, one constructor for each row of the opcode table (rule R68).
An operand is the whole operand byte (rules R66, R67): a register operand of 8 to 255 is a term of this type, which
`Instr.wf` refuses and whose execution takes ILLEGAL_REGISTER (rule R84; DESIGN CHOICE of representation, log entry 6).
-/

namespace Sys2Proof

/-- The 14 instructions (rules R68, R72). -/
inductive Instr where
  /-- HLT: halt (rule R100). -/
  | hlt
  /-- LDI Ra, imm: load an immediate byte (rule R110). -/
  | ldi (a imm : Byte)
  /-- PRN Ra: emit a register on the output port (rule R102). -/
  | prn (a : Byte)
  /-- ST Ra, Rb: store Rb at the address in Ra (rule R112). -/
  | st (a b : Byte)
  /-- ADD Ra, Rb (rule R123). -/
  | add (a b : Byte)
  /-- SUB Ra, Rb (rule R124). -/
  | sub (a b : Byte)
  /-- MUL Ra, Rb (rule R125). -/
  | mul (a b : Byte)
  /-- AND Ra, Rb (rule R126). -/
  | and (a b : Byte)
  /-- OR Ra, Rb (rule R127). -/
  | or (a b : Byte)
  /-- PUSH Ra (rule R141). -/
  | push (a : Byte)
  /-- POP Ra (rule R142). -/
  | pop (a : Byte)
  /-- CALL Ra (rule R151). -/
  | call (a : Byte)
  /-- RET (rule R152). -/
  | ret
  /-- JMP Ra (rule R153). -/
  | jmp (a : Byte)
  deriving DecidableEq, Repr

end Sys2Proof
end

