-- ==== Sys2Proof/WellFormed.lean ====
section
/-!
DEFINITION. The instruction formats (rule R65), the operand bytes each instruction uses as register indices (rules
R65, R84), and the check that an instruction's register operands name registers (rules R25, R66).
-/

namespace Sys2Proof

/-- The four formats of rule R65. -/
inductive Format where
  | f0
  | f1r
  | f2ri
  | f2rr
  deriving DecidableEq, Repr

/-- The operand bytes of a format (rules R60, R65). -/
def Format.operandBytes : Format → Nat
  | .f0 => 0
  | .f1r => 1
  | .f2ri => 2
  | .f2rr => 2

/-- The format of each instruction (rules R65, R68). -/
def Instr.format : Instr → Format
  | .hlt | .ret => .f0
  | .prn _ | .push _ | .pop _ | .call _ | .jmp _ => .f1r
  | .ldi _ _ => .f2ri
  | .st _ _ | .add _ _ | .sub _ _ | .mul _ _ | .and _ _ | .or _ _ => .f2rr

/-- The operand bytes of an instruction in byte order, a first (rules R61, R72). -/
def Instr.operands : Instr → List Byte
  | .hlt => []
  | .ldi a imm => [a, imm]
  | .prn a => [a]
  | .st a b => [a, b]
  | .add a b => [a, b]
  | .sub a b => [a, b]
  | .mul a b => [a, b]
  | .and a b => [a, b]
  | .or a b => [a, b]
  | .push a => [a]
  | .pop a => [a]
  | .call a => [a]
  | .ret => []
  | .jmp a => [a]

/-- The number of leading operand bytes that a format uses as register indices: `regSlots` of rule R89. -/
def Format.registerBytes : Format → Nat
  | .f0 => 0
  | .f1r => 1
  | .f2ri => 1
  | .f2rr => 2

/-- The operand bytes that the instruction uses as register indices, a first (rule R84). -/
def Instr.registerOperands (i : Instr) : List Byte :=
  i.operands.take i.format.registerBytes

/-- A register operand byte names a register when it is 0 to 7; the byte is not masked (rules R25, R66). -/
def namesRegister (byte : Byte) : Bool := decide (byte.toNat < 8)

/-- Every register operand names a register (rule R25). LDI's immediate is not checked (rule R84). -/
def Instr.wf (i : Instr) : Bool := i.registerOperands.all namesRegister

end Sys2Proof
end

