-- ==== Sys2Proof/Decode.lean ====
section
/-!
DEFINITION. The opcode map (rule R68), the decoder's bit fields (rules R62, R63), dispatch on the fetched bytes (rule
R83), the encoder (rules R61, R65), the assembly text (rule R72), and the host's reading of an opcode-table word.
-/

namespace Sys2Proof

/-! ### The opcode map, `OPCODE_MAP` of rules R6 and R68

HLT, LDI, PRN and ADD are the source's values. The other ten are PRESUMED (the LS-8 values, from general knowledge: the
spec's decision D6, log entry 7). -/

def Opcode.hlt : Byte := 0x01
def Opcode.ldi : Byte := 0x82
def Opcode.prn : Byte := 0x47
def Opcode.st : Byte := 0x84
def Opcode.add : Byte := 0xA0
def Opcode.sub : Byte := 0xA1
def Opcode.mul : Byte := 0xA2
def Opcode.and : Byte := 0xA8
def Opcode.or : Byte := 0xAA
def Opcode.push : Byte := 0x45
def Opcode.pop : Byte := 0x46
def Opcode.call : Byte := 0x50
def Opcode.ret : Byte := 0x11
def Opcode.jmp : Byte := 0x54

/-- The opcode byte of an instruction (rule R68). -/
def Instr.opcode : Instr → Byte
  | .hlt => Opcode.hlt
  | .ldi _ _ => Opcode.ldi
  | .prn _ => Opcode.prn
  | .st _ _ => Opcode.st
  | .add _ _ => Opcode.add
  | .sub _ _ => Opcode.sub
  | .mul _ _ => Opcode.mul
  | .and _ _ => Opcode.and
  | .or _ _ => Opcode.or
  | .push _ => Opcode.push
  | .pop _ => Opcode.pop
  | .call _ => Opcode.call
  | .ret => Opcode.ret
  | .jmp _ => Opcode.jmp

/-! ### The fields of an opcode byte -/

/-- `n`, bits 7:6 of the opcode, as an unsigned number (rules R7, R62, R82). -/
def operandCount (op : Byte) : Nat := (op.extractLsb' 6 2).toNat

/-- `setsPc`, bit 4 of the opcode (rules R7, R63, R82). -/
def setsPc (op : Byte) : Bool := op.getLsbD 4

/-- The length of an instruction in bytes, from its opcode alone (rule R60). -/
def instructionLength (op : Byte) : Nat := operandCount op + 1

/-! ### Decoding -/

/-- The three bytes that a step latches: `op`, `a` and `b` (rules R36, R81). -/
structure Fetched where
  op : Byte
  a : Byte
  b : Byte
  deriving DecidableEq, Repr

/-- The latched bytes in address order (rules R45, R61). -/
def Fetched.bytes (f : Fetched) : List Byte := [f.op, f.a, f.b]

/-- Why the decoder rejects (rule R70). -/
inductive DecodeError where
  /-- The opcode byte is not in the map of rule R68. -/
  | unknownOpcode (op : Byte)
  deriving DecidableEq, Repr

/-- The dispatch mapping of rule R83, in the order of rule R68: what each opcode byte makes of the operand bytes `a`
and `b`. A byte that the format does not use is dropped unread (rule R71). -/
def opcodeMap : List (Byte × (Byte → Byte → Instr)) :=
  [(Opcode.hlt, fun _ _ => .hlt),
   (Opcode.ldi, fun a b => .ldi a b),
   (Opcode.prn, fun a _ => .prn a),
   (Opcode.st, fun a b => .st a b)] ++
  [(Opcode.add, fun a b => .add a b),
   (Opcode.sub, fun a b => .sub a b),
   (Opcode.mul, fun a b => .mul a b),
   (Opcode.and, fun a b => .and a b),
   (Opcode.or, fun a b => .or a b)] ++
  [(Opcode.push, fun a _ => .push a),
   (Opcode.pop, fun a _ => .pop a),
   (Opcode.call, fun a _ => .call a),
   (Opcode.ret, fun _ _ => .ret),
   (Opcode.jmp, fun a _ => .jmp a)]

/-- Dispatch on all 8 bits of the opcode (rules R68, R83). Register operands are not checked here: an opcode in the
map is accepted with any operand bytes, and rule R84's check comes after. -/
def decode (f : Fetched) : Except DecodeError Instr :=
  match opcodeMap.find? (fun row => row.1 == f.op) with
  | some row => .ok (row.2 f.a f.b)
  | none => .error (.unknownOpcode f.op)

/-! ### Encoding -/

/-- The bytes of an instruction: its opcode at the lowest address, then its operands (rules R45, R61, R65). -/
def encode (i : Instr) : List Byte := i.opcode :: i.operands

/-- The first three bytes of a byte sequence, as a fetch at its start latches them. A byte past the end is 0x00,
as in memory after reset (rule R37). -/
def Fetched.ofBytes (bytes : List Byte) : Fetched :=
  { op := bytes.getD 0 0, a := bytes.getD 1 0, b := bytes.getD 2 0 }

/-! ### Assembly text (rule R72) -/

/-- The mnemonic of an instruction (rules R68, R72). -/
def Instr.mnemonic : Instr → String
  | .hlt => "HLT"
  | .ldi _ _ => "LDI"
  | .prn _ => "PRN"
  | .st _ _ => "ST"
  | .add _ _ => "ADD"
  | .sub _ _ => "SUB"
  | .mul _ _ => "MUL"
  | .and _ _ => "AND"
  | .or _ _ => "OR"
  | .push _ => "PUSH"
  | .pop _ => "POP"
  | .call _ => "CALL"
  | .ret => "RET"
  | .jmp _ => "JMP"

/-- A register operand as assembly text (rule R72). -/
def registerText (byte : Byte) : String := "R" ++ toString byte.toNat

/-- The operands of an instruction as assembly text: registers by name, the immediate in decimal (rule R72). -/
def Instr.operandTexts (i : Instr) : List String :=
  i.registerOperands.map registerText ++
    (i.operands.drop i.format.registerBytes).map (fun byte => toString byte.toNat)

/-- The assembly text of an instruction, its operands in byte order separated by a comma (rule R72). -/
def Instr.assembly (i : Instr) : String :=
  match i.operandTexts with
  | [] => i.mnemonic
  | texts => i.mnemonic ++ " " ++ String.intercalate "," texts

/-! ### Words as the opcode table numbers them -/

/-- The three bytes of an opcode-table word of `nbits` bits: bit 0 is the least significant bit of the opcode byte,
bits 15:8 are the first operand byte and bits 23:16 the second; every bit above `nbits` is 0. -/
def tableBytes (nbits w : Nat) : Fetched :=
  let bits := w % 2 ^ nbits
  { op := BitVec.ofNat 8 bits, a := BitVec.ofNat 8 (bits / 2 ^ 8), b := BitVec.ofNat 8 (bits / 2 ^ 16) }

/-- The instruction that the decoder reads from an opcode-table word; none where it rejects. -/
def decodeTableWord (nbits w : Nat) : Option Instr :=
  match decode (tableBytes nbits w) with
  | .ok i => some i
  | .error _ => none

end Sys2Proof
end

