-- ==== Sys2Proof/Machine/State.lean ====
section
/-!
DEFINITION. The state of the LS-8 core, exactly the six rows of rule R20, its value after reset (rule R37), and the
reasons a step can stop. The fetch latches are values of one step and no field (rule R36, log entry 5).
-/

namespace Sys2Proof.Machine

/-- The run state (rule R32). -/
inductive RunState where
  /-- Reset done, not executing: the host may load and start. -/
  | idle
  /-- Executing steps. -/
  | running
  /-- Stopped cleanly by HLT. -/
  | halted
  /-- Stopped by a fault. -/
  | faulted
  deriving DecidableEq, Repr

/-- The fault record: five bytes, for the host only (rules R33, R177). -/
structure FaultRecord where
  /-- `fault_cause` -/
  cause : Byte
  /-- `fault_pc` -/
  pc : Byte
  /-- `fault_opcode` -/
  opcode : Byte
  /-- `fault_operand` -/
  operand : Byte
  /-- `fault_slot` -/
  slot : Byte
  deriving DecidableEq, Repr

/-- The fault record when no fault has happened (rules R33, R37). -/
def FaultRecord.none : FaultRecord := { cause := 0, pc := 0, opcode := 0, operand := 0, slot := 0 }

/-- The two faults that the core raises (rule R170). The reserved code 3 has no constructor, because nothing raises it
(rules R129, R173). -/
inductive FaultCause where
  | unknownOpcode
  | illegalRegister
  deriving DecidableEq, Repr

/-- Which operand byte a fault names (rule R33). -/
inductive FaultSlot where
  | none
  | a
  | b
  deriving DecidableEq, Repr

/-- Memory: the cells that do not hold their reset value, as address and byte, in the canonical form of `Memory.wf`
(rule R40; DESIGN CHOICE of representation, log entry 1). -/
abbrev Memory := List Host.Cell

/-- The state of the core (rule R20). -/
structure State where
  /-- `mem[0..255]` (rule R40). -/
  mem : Memory
  /-- `x[0..7]`; `x[7]` is also `sp` (rules R21 to R23). -/
  regs : Vector Byte 8
  /-- `pc` (rule R27). -/
  pc : Byte
  /-- `status` (rule R32). -/
  status : RunState
  /-- The fault record (rule R33). -/
  fault : FaultRecord
  /-- The output stream, oldest byte first (rule R35). -/
  output : List Byte
  deriving DecidableEq, Repr

/-- The core right after reset (rules R37, R200). -/
def State.reset : State :=
  { mem := []
    regs := #v[0, 0, 0, 0, 0, 0, 0, Config.stackPointerReset]
    pc := Config.pcReset
    status := .idle
    fault := FaultRecord.none
    output := [] }

/-- Why the machine takes no step: it is not Running (rule R80; log entry 2). A fault of the CORE is no constructor
here: it is a next state, with `status` Faulted and the fault record written (rule R175, log entry 3). -/
inductive Fault where
  /-- `step` in Idle: the core waits for the host's start (rules R80, R202). Safe: the core takes no step either. -/
  | notStarted
  /-- `step` in Halted, which is terminal (rules R80, R185). Safe: the core takes no step either. -/
  | halted
  /-- `step` in Faulted, which is terminal (rules R80, R178). Safe: the core takes no step either. -/
  | faulted
  deriving DecidableEq, Repr

/-- Why the model gives no meaning. -/
inductive Refusal where
  /-- Raised by an arm of `exec` for an instruction without a meaning. Safe. No arm raises it: all 14 are modelled. -/
  | notModelled (mnemonic : String)
  deriving DecidableEq, Repr

/-- What a step or an instruction answers. -/
abbrev Result := Host.Outcome State Fault Refusal

end Sys2Proof.Machine
end

