-- ==== Sys2Proof/Machine/Ops.lean ====
section
/-!
DEFINITION. The named operations over the state: memory (rules R41, R42), registers and the stack pointer (rules R21 to
R23, R140), the output port (rule R182), the program counter's advance (rule R86), halting (rule R87) and taking a
fault (rule R175). There is no return from a fault (rule R178): only the host's reset leaves Faulted, and it is in
Machine/HostPort.lean.
-/

namespace Sys2Proof.Machine

/-! ### Memory -/

/-- What a cell that the list does not name reads as: its value after reset (rule R37). -/
def Memory.unlisted : Byte := Config.memoryReset

/-- The canonical form: addresses strictly rising and below 256, and no entry equal to what an unlisted cell reads as. -/
abbrev Memory.wf (m : Memory) : Prop :=
  m.Pairwise (fun c d => c.1 < d.1) ∧ ∀ c ∈ m, c.1 < Config.memorySize ∧ c.2 ≠ Memory.unlisted

/-- The byte in the cell with the given number. -/
def Memory.lookup : Memory → Nat → Byte
  | [], _ => Memory.unlisted
  | c :: rest, k => if c.1 = k then c.2 else Memory.lookup rest k

/-- Forget what is listed for a cell, which then holds its reset value. -/
def Memory.erase (m : Memory) (k : Nat) : Memory := m.filter (fun c => c.1 != k)

/-- List a cell before the first one of a higher number. -/
def Memory.insert : Memory → Nat → Byte → Memory
  | [], k, v => [(k, v)]
  | c :: rest, k, v => if k < c.1 then (k, v) :: c :: rest else c :: Memory.insert rest k v

/-- Set one cell, keeping the canonical form. -/
def Memory.update (m : Memory) (k : Nat) (v : Byte) : Memory :=
  if v = Memory.unlisted then m.erase k else (m.erase k).insert k v

/-- `MemRead(addr, 1)` (rule R41). -/
def State.memRead (s : State) (addr : Byte) : Byte := s.mem.lookup addr.toNat

/-- `MemWrite(addr, 1, v)` (rule R42). -/
def State.memWrite (s : State) (addr v : Byte) : State := { s with mem := s.mem.update addr.toNat v }

/-! ### Registers -/

/-- `x[r]` (rule R9). -/
def State.readReg (s : State) (r : RegId) : Byte := s.regs.get r

/-- `x[r] <- v` (rule R9). No register is hard-wired (rule R22). -/
def State.writeReg (s : State) (r : RegId) (v : Byte) : State := { s with regs := s.regs.set r v }

/-- `sp`, the same storage as `x[7]` (rule R23). -/
def State.sp (s : State) : Byte := s.readReg Config.stackPointer

/-- `sp <- v`, the same storage as `x[7]` (rule R23). -/
def State.setSp (s : State) (v : Byte) : State := s.writeReg Config.stackPointer v

/-- `sp <- (sp - 1) mod 256` (rules R140, R143; UNVERIFIED: the wrap is the spec's decision D2, log entry 10). -/
def State.decSp (s : State) : State := s.setSp (s.sp - 1)

/-- `sp <- (sp + 1) mod 256` (rules R140, R143; UNVERIFIED: the wrap is the spec's decision D2, log entry 10). -/
def State.incSp (s : State) : State := s.setSp (s.sp + 1)

/-! ### The program counter, the run state and the output port -/

/-- `pc <- target` (rule R9). -/
def State.setPc (s : State) (target : Byte) : State := { s with pc := target }

/-- `status <- u` (rule R9). -/
def State.setStatus (s : State) (u : RunState) : State := { s with status := u }

/-- `Out(v)`: append to the output stream; the port never blocks (rules R35, R182). -/
def State.out (s : State) (v : Byte) : State := { s with output := s.output ++ [v] }

/-- The advance of rule R86 after the action of the opcode `op`: nothing when its sets-pc bit is set, else
`pc <- (pc + n + 1) mod 256` (UNVERIFIED: the wrap is the spec's decision D2, log entry 10). -/
def State.advance (s : State) (op : Byte) : State :=
  if setsPc op then s else s.setPc (s.pc + BitVec.ofNat 8 (instructionLength op))

/-- `status <- Halted` (rule R87). -/
def State.halt (s : State) : State := s.setStatus .halted

/-! ### Taking a fault -/

/-- The code of a fault in `fault_cause` (rule R170). -/
def FaultCause.code : FaultCause → Byte
  | .unknownOpcode => 1
  | .illegalRegister => 2

/-- The code of an operand in `fault_slot` (rule R33). -/
def FaultSlot.code : FaultSlot → Byte
  | .none => 0
  | .a => 1
  | .b => 2

/-- `raise Fault(cause, info)` (rules R9, R175): only `status` and the fault record are written, so memory, registers,
the output stream and `pc` keep the values they had before the step, and `fault_pc` is the opcode's address. -/
def State.raiseFault (s : State) (cause : FaultCause) (op operand : Byte) (slot : FaultSlot) : State :=
  { s with
    status := .faulted
    fault := { cause := cause.code, pc := s.pc, opcode := op, operand := operand, slot := slot.code } }

/-- UNKNOWN_OPCODE (rules R83, R170, R171). -/
def State.raiseUnknownOpcode (s : State) (op : Byte) : State := s.raiseFault .unknownOpcode op 0 .none

/-- ILLEGAL_REGISTER (rules R84, R170, R172). -/
def State.raiseIllegalRegister (s : State) (op byte : Byte) (slot : FaultSlot) : State :=
  s.raiseFault .illegalRegister op byte slot

end Sys2Proof.Machine
end

