-- ==== Sys2Proof/Machine/Operands.lean ====
section
/-!
DEFINITION. The operand forms (rules R65 to R67), the register-operand check that comes before every action (rules R84,
R176), and what is common to the steps of all 14 instructions: check, action, advance (rule R89).
-/

namespace Sys2Proof.Machine

/-- The register that an operand byte names: the byte is not masked, and 8 to 255 name none (rules R25, R66). -/
def regIndex (byte : Byte) : Option RegId :=
  if h : byte.toNat < 8 then some ⟨byte.toNat, h⟩ else none

/-- A completed instruction: the advance of rule R86 after its action. -/
def completed (i : Instr) (s : State) : Result := .next (s.advance i.opcode)

/-- The step of an instruction without register operands (format F0): no check, then the action (rules R84, R89). -/
def withNoReg (i : Instr) (s : State) (action : State → State) : Result :=
  completed i (action s)

/-- The step of an instruction with one register operand (formats F1R and F2RI): ILLEGAL_REGISTER for operand a before
any change, or the action on the register it names (rules R84, R89). -/
def withReg (i : Instr) (a : Byte) (s : State) (action : RegId → State → State) : Result :=
  match regIndex a with
  | none => .next (s.raiseIllegalRegister i.opcode a .a)
  | some ra => completed i (action ra s)

/-- The step of an instruction with two register operands (format F2RR): operand a is checked first, then b, then the
action runs (rules R84, R89, R176; UNVERIFIED: the order is the spec's decision D10, log entry 12). -/
def withTwoRegs (i : Instr) (a b : Byte) (s : State) (action : RegId → RegId → State → State) : Result :=
  match regIndex a with
  | none => .next (s.raiseIllegalRegister i.opcode a .a)
  | some ra =>
    match regIndex b with
    | none => .next (s.raiseIllegalRegister i.opcode b .b)
    | some rb => completed i (action ra rb s)

end Sys2Proof.Machine
end

