-- ==== Sys2Proof/Machine/Flags.lean ====
section
/-!
DEFINITION. What an ALU operation computes (rules R121, R122, R129). THE CORE HAS NO FLAGS (rules R30, R128): no result
leaves a carry, an overflow, a zero or a sign anywhere, so this file computes the result byte and nothing beside it.
-/

namespace Sys2Proof.Machine

/-- The ALU's operation select, a closed set of five (rule R129). -/
inductive AluOp where
  | add
  | sub
  | mul
  | and
  | or
  deriving DecidableEq, Repr

/-- The exact integer result of an operation on two unsigned bytes (rules R8, R122). -/
def AluOp.exact : AluOp → Byte → Byte → Int
  | .add, x, y => (x.toNat : Int) + y.toNat
  | .sub, x, y => (x.toNat : Int) - y.toNat
  | .mul, x, y => (x.toNat : Int) * y.toNat
  | .and, x, y => ((x &&& y).toNat : Int)
  | .or, x, y => ((x ||| y).toNat : Int)

/-- `f_OP`: the exact result reduced modulo 256 (rules R120, R121; UNVERIFIED: the truncation is the spec's decision
D1, log entry 11). -/
def AluOp.result (op : AluOp) (x y : Byte) : Byte := BitVec.ofInt 8 (op.exact x y)

end Sys2Proof.Machine
end

