-- ==== Sys2Proof/Machine/Alu.lean ====
section
/-!
DEFINITION. The ALU instructions: ADD, SUB, MUL, AND and OR (spec/43_alu.md).
-/

namespace Sys2Proof.Machine

/-- What all five do (rules R120, R128): read both registers, then write the result to the first and nothing else. -/
def aluAction (op : AluOp) (ra rb : RegId) (s : State) : State :=
  s.writeReg ra (op.result (s.readReg ra) (s.readReg rb))

/-- ADD Ra, Rb (rule R123). -/
def execAdd (a b : Byte) (s : State) : Result := withTwoRegs (.add a b) a b s (aluAction .add)

/-- SUB Ra, Rb (rule R124): the first operand minus the second. -/
def execSub (a b : Byte) (s : State) : Result := withTwoRegs (.sub a b) a b s (aluAction .sub)

/-- MUL Ra, Rb (rule R125): the low 8 bits of the product. -/
def execMul (a b : Byte) (s : State) : Result := withTwoRegs (.mul a b) a b s (aluAction .mul)

/-- AND Ra, Rb (rule R126). -/
def execAnd (a b : Byte) (s : State) : Result := withTwoRegs (.and a b) a b s (aluAction .and)

/-- OR Ra, Rb (rule R127). -/
def execOr (a b : Byte) (s : State) : Result := withTwoRegs (.or a b) a b s (aluAction .or)

end Sys2Proof.Machine
end

