-- ==== Sys2Proof/Machine/ControlTransfer.lean ====
section
/-!
DEFINITION. The control-transfer instructions: CALL, RET and JMP (spec/45_control_transfer.md). All three have the
sets-pc bit, so the advance of rule R86 leaves `pc` as the action wrote it.
-/

namespace Sys2Proof.Machine

/-- The action of CALL for a given `CALL_RETURN_OFFSET` (rule R151): push the return address, then jump to `x[a]` as it
is after the decrement of `sp` (UNVERIFIED: the order is the spec's decision D15, log entry 13). -/
def callAction (offset : Byte) (ra : RegId) (s : State) : State :=
  let ret := s.pc + offset
  let moved := s.decSp
  let pushed := moved.memWrite moved.sp ret
  pushed.setPc (pushed.readReg ra)

/-- CALL Ra (rule R151), with the offset 2 of rule R6 (conflict C1). -/
def execCall (a : Byte) (s : State) : Result :=
  withReg (.call a) a s (callAction Config.callReturnOffset)

/-- The action of RET (rule R152): `pc` takes the byte at `sp`, then `sp` is incremented. -/
def retAction (s : State) : State := (s.setPc (s.memRead s.sp)).incSp

/-- RET (rule R152). -/
def execRet (s : State) : Result := withNoReg .ret s retAction

/-- The action of JMP (rule R153): `pc <- x[a]`. -/
def jmpAction (ra : RegId) (s : State) : State := s.setPc (s.readReg ra)

/-- JMP Ra (rule R153). -/
def execJmp (a : Byte) (s : State) : Result := withReg (.jmp a) a s jmpAction

end Sys2Proof.Machine
end

