-- ==== Sys2Proof/Machine/DataTransfer.lean ====
section
/-!
DEFINITION. The data transfer instructions: LDI and ST (spec/42_data_transfer.md).
-/

namespace Sys2Proof.Machine

/-- The action of LDI (rule R110): `x[a] <- imm`, with no extension (rule R67). -/
def ldiAction (imm : Byte) (ra : RegId) (s : State) : State := s.writeReg ra imm

/-- LDI Ra, imm (rule R110). The immediate is never checked (rule R84). -/
def execLdi (a imm : Byte) (s : State) : Result := withReg (.ldi a imm) a s (ldiAction imm)

/-- The action of ST (rule R112): `MemWrite(x[a], 1, x[b])`. -/
def stAction (ra rb : RegId) (s : State) : State := s.memWrite (s.readReg ra) (s.readReg rb)

/-- ST Ra, Rb (rule R112). -/
def execSt (a b : Byte) (s : State) : Result := withTwoRegs (.st a b) a b s stAction

end Sys2Proof.Machine
end

