-- ==== Sys2Proof/Machine/Stack.lean ====
section
/-!
DEFINITION. The stack instructions: PUSH and POP (spec/44_stack.md). The order inside an action matters when the operand
is R7 (UNVERIFIED: the spec's decision D15, log entry 13).
-/

namespace Sys2Proof.Machine

/-- The action of PUSH (rule R141): `sp` is decremented, then `x[a]` is read and written at the new `sp`. -/
def pushAction (ra : RegId) (s : State) : State :=
  let moved := s.decSp
  moved.memWrite moved.sp (moved.readReg ra)

/-- PUSH Ra (rule R141). -/
def execPush (a : Byte) (s : State) : Result := withReg (.push a) a s pushAction

/-- The action of POP (rule R142): the byte at `sp` is written to `x[a]`, then `sp`, read after that write, is
incremented. -/
def popAction (ra : RegId) (s : State) : State := (s.writeReg ra (s.memRead s.sp)).incSp

/-- POP Ra (rule R142). -/
def execPop (a : Byte) (s : State) : Result := withReg (.pop a) a s popAction

end Sys2Proof.Machine
end

