-- ==== Sys2Proof/Machine/SystemIo.lean ====
section
/-!
DEFINITION. The system and output instructions: HLT and PRN (spec/41_system_io.md).
-/

namespace Sys2Proof.Machine

/-- HLT (rule R100): the action does nothing; the step advances `pc` and then sets `status <- Halted` (rule R87). -/
def execHlt (s : State) : Result := .next ((s.advance (Instr.hlt).opcode).halt)

/-- The action of PRN (rule R102): `Out(x[a])`. -/
def prnAction (ra : RegId) (s : State) : State := s.out (s.readReg ra)

/-- PRN Ra (rule R102). -/
def execPrn (a : Byte) (s : State) : Result := withReg (.prn a) a s prnAction

end Sys2Proof.Machine
end

