-- ==== Sys2Proof/Machine/Fetch.lean ====
section
/-!
DEFINITION. When the core takes a step (rule R80), and fetching the three bytes of an instruction (rules R54, R81).
-/

namespace Sys2Proof.Machine

/-- Why a core that is not Running takes no step; none while it is Running (rule R80). -/
def stopReason : RunState → Option Fault
  | .idle => some .notStarted
  | .running => none
  | .halted => some .halted
  | .faulted => some .faulted

/-- Fetch: the three bytes at `pc`, `pc + 1` and `pc + 2`, modulo 256, from live memory (rules R54, R55, R81). -/
def fetch (s : State) : Fetched :=
  { op := s.memRead s.pc, a := s.memRead (s.pc + 1), b := s.memRead (s.pc + 2) }

/-- Memory with three bytes placed where the next fetch reads them. -/
def State.placeFetched (s : State) (f : Fetched) : State :=
  ((s.memWrite s.pc f.op).memWrite (s.pc + 1) f.a).memWrite (s.pc + 2) f.b

end Sys2Proof.Machine
end

