-- ==== Sys2Proof/Machine/Step.lean ====
section
/-!
DEFINITION. One step of the core (rule R89): fetch, decode, dispatch, and either the fault UNKNOWN_OPCODE or the
instruction's own step, which checks its register operands, acts and advances.
-/

namespace Sys2Proof.Machine

/-- One step (rules R80 to R89). The fetched bytes are latched: nothing later in the step reads them again (rule R81). -/
def step (s : State) : Host.Outcome State Fault Refusal :=
  match stopReason s.status with
  | some r => .fault r
  | none =>
    match decode (fetch s) with
    | .error (.unknownOpcode op) => .next (s.raiseUnknownOpcode op)
    | .ok i => exec i s

/-- The opcode-table word placed at `pc` in a Running core, so that the next step fetches and runs it. It stands for
what the host does before a program runs: load and start (rules R201, R202; log entry 17). -/
def State.withFetchWord (s : State) (nbits w : Nat) : State :=
  (s.placeFetched (tableBytes nbits w)).setStatus .running

end Sys2Proof.Machine
end

