-- ==== Sys2Proof/Machine/HostPort.lean ====
section
/-!
DEFINITION. The host's side of the core (rules R184, R200 to R206): reset, load, start, output, inspect and status. The
host acts between steps (rule R88), so each interaction is a function on the state, beside `step` and never inside it
(log entry 15).
-/

namespace Sys2Proof.Machine

/-- The encoding of the run state that the host reads (rule R32). -/
def RunState.code : RunState → BitVec 2
  | .idle => 0
  | .running => 1
  | .halted => 2
  | .faulted => 3

/-- The inspection port's view (rule R184). -/
structure Inspection where
  pc : Byte
  bytes : Fetched
  regs : Vector Byte 8
  deriving DecidableEq, Repr

/-- The host's interactions, the six rows of rule R205. -/
inductive HostAction where
  | reset
  | load (image : List Byte)
  | start
  | output
  | inspect
  | status
  deriving DecidableEq, Repr

/-- What the host gets back (rule R205). -/
inductive HostReply where
  | nothing
  | accepted
  | refused
  | bytes (stream : List Byte)
  | inspection (view : Inspection)
  | runStatus (code : BitVec 2) (record : FaultRecord)
  deriving DecidableEq, Repr

/-- Copy bytes into the cells from number `k` up (rule R201). -/
def State.copyBytes (s : State) (k : Nat) : List Byte → State
  | [] => s
  | v :: rest => (s.memWrite (BitVec.ofNat 8 k) v).copyBytes (k + 1) rest

/-- The load interface accepts only in Idle and only an image of at most 256 bytes (rule R201; UNVERIFIED: the spec's
decision D12, log entry 16). -/
def loadAccepted (s : State) (image : List Byte) : Bool :=
  decide (s.status = .idle) && decide (image.length ≤ Config.memorySize)

/-- Reset, in any run state (rule R200). -/
def hostReset (_s : State) : State := State.reset

/-- Load an image at address 0; a refused load changes nothing (rule R201). -/
def hostLoad (image : List Byte) (s : State) : State :=
  if loadAccepted s image then s.copyBytes 0 image else s

/-- Start: Idle becomes Running; in any other run state it has no effect (rule R202). -/
def hostStart (s : State) : State :=
  if s.status = .idle then s.setStatus .running else s

/-- The inspection port (rule R184). -/
def inspection (s : State) : Inspection := { pc := s.pc, bytes := fetch s, regs := s.regs }

/-- One host interaction: the reply and the state after it (rules R204, R205). Output, inspect and status only read. -/
def hostAct (act : HostAction) (s : State) : HostReply × State :=
  match act with
  | .reset => (.nothing, hostReset s)
  | .load image => (if loadAccepted s image then .accepted else .refused, hostLoad image s)
  | .start => (.nothing, hostStart s)
  | .output => (.bytes s.output, s)
  | .inspect => (.inspection (inspection s), s)
  | .status => (.runStatus s.status.code s.fault, s)

/-- The numbers that the host shows for the output stream: unsigned, 0 to 255 (rules R102, R182; UNVERIFIED: the spec's
decision D17, log entry 14). -/
def shownNumbers (s : State) : List Nat := s.output.map BitVec.toNat

/-- A run has ended (rule R206). -/
def State.ended (s : State) : Bool := s.status == .halted || s.status == .faulted

/-- A run has ended cleanly (rule R206). -/
def State.endedCleanly (s : State) : Bool := s.status == .halted

end Sys2Proof.Machine
end

