-- ==== Sys2Proof/Safety.lean ====
section
/-!
DEFINITION. The terms in which claims about the core are stated: what is left unchanged, a fault taken, the fault that a
state's next instruction raises, the invariant of the core, and the states that the core can be in.
-/

namespace Sys2Proof.Machine

/-- An operand byte names a register (rule R66). -/
def Names (byte : Byte) (r : RegId) : Prop := byte.toNat = r.val

/-- Nothing but `pc`, the listed registers and the listed cells differs, and `emitted` is what was appended to the output
stream: every other register and cell, the run state and the fault record are as before. -/
def OnlyChanges (regs : List RegId) (cells emitted : List Byte) (s t : State) : Prop :=
  (∀ r, r ∉ regs → t.readReg r = s.readReg r) ∧
  (∀ c, c ∉ cells → t.memRead c = s.memRead c) ∧
  t.status = s.status ∧ t.fault = s.fault ∧ t.output = s.output ++ emitted

/-- A fault was taken (rules R170, R175): the core is Faulted with this cause, opcode, operand and slot recorded and the
opcode's address as `fault_pc`, and memory, registers, `pc` and the output stream are as before. -/
def FaultTaken (cause op operand slot : Byte) (s t : State) : Prop :=
  t.status = .faulted ∧
  t.fault = { cause := cause, pc := s.pc, opcode := op, operand := operand, slot := slot } ∧
  (∀ r, t.readReg r = s.readReg r) ∧ (∀ c, t.memRead c = s.memRead c) ∧
  t.pc = s.pc ∧ t.output = s.output

/-- ILLEGAL_REGISTER was taken (rules R170, R172). -/
def IllegalRegisterTaken (op operand slot : Byte) (s t : State) : Prop := FaultTaken 2 op operand slot s t

/-- What a rule says of an instruction of format F1R (rules R65, R71, R84): its bytes, its opcode's fields, that byte b
is not used, its effect when operand a names a register, and ILLEGAL_REGISTER for operand a when it names none. -/
def OneRegisterRule (op : Byte) (pcIsSet : Bool) (mk : Byte → Instr) (effect : RegId → State → State → Prop) : Prop :=
  operandCount op = 1 ∧ setsPc op = pcIsSet ∧
  ∀ (a : Byte) (s : State),
    encode (mk a) = [op, a] ∧
    (∀ unused : Byte, decode { op := op, a := a, b := unused } = .ok (mk a)) ∧
    (∀ ra, Names a ra → ∃ t, exec (mk a) s = .next t ∧ effect ra s t) ∧
    (8 ≤ a.toNat → ∃ t, exec (mk a) s = .next t ∧ IllegalRegisterTaken op a 1 s t)

/-- What a rule says of an instruction of format F2RR (rules R65, R84, R86, R176): its bytes, its opcode's fields, its
effect when both operands name registers, with `pc` advanced by 3, and ILLEGAL_REGISTER for operand a, else for operand
b, when one names none. -/
def TwoRegisterRule (op : Byte) (mk : Byte → Byte → Instr) (effect : RegId → RegId → State → State → Prop) : Prop :=
  operandCount op = 2 ∧ setsPc op = false ∧
  ∀ (a b : Byte) (s : State),
    encode (mk a b) = [op, a, b] ∧ decode { op := op, a := a, b := b } = .ok (mk a b) ∧
    (∀ ra rb, Names a ra → Names b rb → ∃ t, exec (mk a b) s = .next t ∧ t.pc = s.pc + 3 ∧ effect ra rb s t) ∧
    (8 ≤ a.toNat → ∃ t, exec (mk a b) s = .next t ∧ IllegalRegisterTaken op a 1 s t) ∧
    (a.toNat < 8 → 8 ≤ b.toNat → ∃ t, exec (mk a b) s = .next t ∧ IllegalRegisterTaken op b 2 s t)

/-- The first operand byte, of those used as register indices, that names no register, with its slot: 1 for a, 2 for b
(rules R84, R176). -/
def firstIllegal (i : Instr) : Option (Byte × Byte) :=
  match i.registerOperands with
  | [] => none
  | a :: rest =>
    if 8 ≤ a.toNat then some (1, a)
    else match rest with
      | [] => none
      | b :: _ => if 8 ≤ b.toNat then some (2, b) else none

/-- The fault that the instruction at `pc` raises, as the record it leaves, in the order of rule R176; none when the
instruction executes (rules R170 to R172). It reads `pc` and memory only. -/
def pendingFault (s : State) : Option FaultRecord :=
  match decode (fetch s) with
  | .error (.unknownOpcode op) =>
    some { cause := 1, pc := s.pc, opcode := op, operand := 0, slot := 0 }
  | .ok i =>
    match firstIllegal i with
    | some (slot, byte) =>
      some { cause := 2, pc := s.pc, opcode := s.memRead s.pc, operand := byte, slot := slot }
    | none => none

/-- The cell that an instruction stores to (rule R43): `x[a]` for ST, and `sp` after its decrement for PUSH and CALL. -/
def storeCells (i : Instr) (s : State) : List Byte :=
  match i with
  | .st a _ => (regIndex a).toList.map s.readReg
  | .push _ | .call _ => [s.decSp.sp]
  | _ => []

/-- The registers that an instruction writes, by the table of rule R24. -/
def writtenRegs (i : Instr) : List RegId :=
  match i with
  | .ldi a _ | .add a _ | .sub a _ | .mul a _ | .and a _ | .or a _ => (regIndex a).toList
  | .pop a => 7 :: (regIndex a).toList
  | .push _ | .call _ | .ret => [7]
  | .hlt | .prn _ | .st _ _ | .jmp _ => []

/-- The invariant of the core: memory is in canonical form, and the fault record is the one that the instruction at `pc`
raises when the core is Faulted, and empty when it is not (rules R33, R175). -/
def State.Inv (s : State) : Prop :=
  s.mem.wf ∧
  (s.status = .faulted → pendingFault s = some s.fault) ∧
  (s.status ≠ .faulted → s.fault = FaultRecord.none)

/-- The states that the core can be in: after reset, a step, or an interaction of the host between steps (rules R88,
R205). -/
inductive Reachable : State → Prop where
  | reset : Reachable State.reset
  | step {s t : State} : Reachable s → step s = .next t → Reachable t
  | host {s : State} (act : HostAction) : Reachable s → Reachable (hostAct act s).2

/-- Instructions executed one after the other, each from the state the one before left; none when one of them stops.
No fetch is part of it. -/
def execAll : List Instr → State → Option State
  | [], s => some s
  | i :: rest, s =>
    match exec i s with
    | .next t => execAll rest t
    | .fault _ => none
    | .refused _ => none

/-- Two states that hold the same program-visible state: memory, registers and `pc` (rules R20, R31). -/
def SameVisible (s t : State) : Prop := t.mem = s.mem ∧ t.regs = s.regs ∧ t.pc = s.pc

end Sys2Proof.Machine
end

