-- ==== Sys2Proof/Certificates/Slice0/Obligations.lean ====
section
/-!
DEFINITION. The statements about the core. Where a docstring names a decision D<n>, the spec marks the clause as its own
decision (spec/92_eei_decisions.md); where it names a log entry, the clause is the model's own choice.
-/

open Sys2Proof Sys2Proof.Machine

/-! ### Encoding -/

/-- Decode and encode agree, both ways. Decoding the bytes of an instruction gives it back, with every operand byte at every
value and whatever bytes stand after it; and what the decoder accepts begins with the bytes of the instruction it gives,
the bytes left over being exactly those past the length that the opcode tells (rules R60, R61, R65, R68, R71; ten opcode
values are decision D6). -/
def Obligations.DecodeAndEncodeAgree : Prop :=
  (∀ (i : Instr) (x y : Byte), decode (Fetched.ofBytes (encode i ++ [x, y])) = .ok i) ∧
  (∀ (f : Fetched) (i : Instr), decode f = .ok i →
    ∃ rest, f.bytes = encode i ++ rest ∧ rest.length + instructionLength f.op = 3)

/-- A byte sequence begins with the bytes of at most one instruction, so it splits into instructions in one way only
(rule R60: the length is told from the opcode alone). -/
def Obligations.EncodingsArePrefixFree : Prop :=
  ∀ (i j : Instr) (p q : List Byte), encode i ++ p = encode j ++ q → i = j ∧ p = q

/-- Rule R69: bits 7:6 of the opcode are the number of operands, bit 4 is set exactly for CALL, RET and JMP. -/
def Obligations.OpcodeBitsCarryTheShape : Prop :=
  (operandCount (Instr.hlt).opcode = 0 ∧ operandCount (Instr.ret).opcode = 0) ∧
  (∀ a, operandCount (Instr.prn a).opcode = 1 ∧ operandCount (Instr.push a).opcode = 1 ∧
    operandCount (Instr.pop a).opcode = 1 ∧ operandCount (Instr.call a).opcode = 1 ∧
    operandCount (Instr.jmp a).opcode = 1) ∧
  (∀ a b, operandCount (Instr.ldi a b).opcode = 2 ∧ operandCount (Instr.st a b).opcode = 2 ∧
    operandCount (Instr.add a b).opcode = 2 ∧ operandCount (Instr.sub a b).opcode = 2 ∧
    operandCount (Instr.mul a b).opcode = 2 ∧ operandCount (Instr.and a b).opcode = 2 ∧
    operandCount (Instr.or a b).opcode = 2) ∧
  (∀ i : Instr, i.operands.length = operandCount i.opcode ∧
    (setsPc i.opcode = true ↔ (∃ a, i = .call a) ∨ i = .ret ∨ ∃ a, i = .jmp a))

/-- Rules R62 and R63: the operand count is the number in the two most significant bits, and an opcode whose operand count
is 3 is not decoded; the sets-pc field is bit 4, of value 0x10, and where it is set the loop does not advance `pc`. -/
def Obligations.OpcodeFieldsAreTheBitsOfTheByte : Prop :=
  ∀ op : Byte, operandCount op = op.toNat / 64 ∧
    (setsPc op = true ↔ op.toNat / 16 % 2 = 1) ∧
    (operandCount op = 3 → ∀ a b, decode { op := op, a := a, b := b } = .error (.unknownOpcode op)) ∧
    (setsPc op = true → ∀ s : State, s.advance op = s)

/-- Rule R70: exactly the opcode bytes outside the 14 of the map are illegal, whatever bytes follow, and there are 242 of
them (ten of the 14 values are decision D6). -/
def Obligations.DecoderRejectsExactlyTheOtherBytes : Prop :=
  (∀ f : Fetched, decode f = .error (.unknownOpcode f.op) ↔
    f.op ∉ ([0x01, 0x82, 0x47, 0x84, 0xA0, 0xA1, 0xA2, 0xA8, 0xAA, 0x45, 0x46, 0x50, 0x11, 0x54] : List Byte)) ∧
  ((List.range 256).filter fun n => (decodeTableWord 8 n).isNone).length = 242

/-- Words written out from the encodings of the spec decode to the instructions they stand for (the bytes of the source's
scenario and of spec/95_test_vectors.md; ten opcode values are decision D6). -/
def Obligations.WordsOfEachFamilyDecode : Prop :=
  decode { op := 0b10000010, a := 0b00000000, b := 0b00001000 } = .ok (.ldi 0 8) ∧
  decode { op := 0b10100000, a := 0b00000000, b := 0b00000001 } = .ok (.add 0 1) ∧
  decode { op := 0b01000111, a := 0b00000000, b := 0b00000001 } = .ok (.prn 0) ∧
  decode { op := 0b10000100, a := 0b00000010, b := 0b00000011 } = .ok (.st 2 3) ∧
  decode { op := 0b10100001, a := 0b00000000, b := 0b00000001 } = .ok (.sub 0 1) ∧
  decode { op := 0b01000101, a := 0b00000010, b := 0b01000110 } = .ok (.push 2) ∧
  decode { op := 0b01010000, a := 0b00000001, b := 0b01000111 } = .ok (.call 1) ∧
  decode { op := 0b00010001, a := 0b11111111, b := 0b11111111 } = .ok .ret

/-! ### Memory, registers and reset -/

/-- Rule R42: a write sets one cell and changes no other cell and no other state. -/
def Obligations.MemoryWriteSetsOneCell : Prop :=
  ∀ (s : State) (addr v : Byte),
    (s.memWrite addr v).memRead addr = v ∧
    (∀ c, c ≠ addr → (s.memWrite addr v).memRead c = s.memRead c) ∧
    (s.memWrite addr v).regs = s.regs ∧ (s.memWrite addr v).pc = s.pc ∧
    (s.memWrite addr v).status = s.status ∧ (s.memWrite addr v).fault = s.fault ∧
    (s.memWrite addr v).output = s.output

/-- In the canonical form of memory (the model's choice, log entry 1), memories that read alike are the same data. -/
def Obligations.CanonicalMemoriesThatReadAlikeAreEqual : Prop :=
  ∀ s t : State, s.mem.wf → t.mem.wf → (∀ c, t.memRead c = s.memRead c) → t.mem = s.mem

/-- In the canonical form of memory (the model's choice, log entry 1), writes to different cells commute, the later of two
writes to one cell is the one that counts, and writing back the byte a cell holds changes nothing, as equalities of
states. -/
def Obligations.CanonicalWritesAreExtensional : Prop :=
  ∀ s : State, s.mem.wf → ∀ a b v w : Byte,
    (a ≠ b → (s.memWrite a v).memWrite b w = (s.memWrite b w).memWrite a v) ∧
    (s.memWrite a v).memWrite a w = s.memWrite a w ∧
    s.memWrite a (s.memRead a) = s

/-- Rules R22 and R23: every register, R7 included, holds what was last written to it and no write reaches another; the
stack pointer is R7 under a second name, for reads and for writes. -/
def Obligations.RegistersArePlainAndSpIsR7 : Prop :=
  ∀ (s : State) (r r' : RegId) (v : Byte),
    (s.writeReg r v).readReg r' = (if r' = r then v else s.readReg r') ∧
    s.sp = s.readReg 7 ∧
    (s.writeReg r v).sp = (if r = 7 then v else s.sp) ∧
    (s.setSp v).readReg r = (if r = 7 then v else s.readReg r)

/-- Rule R37's table: every cell and R0 to R6 are zero and R7 is 0xF4 (the source's values); `pc` is zero (decision D4),
the core is Idle (D7), the fault record is zero (D8) and the output stream is empty (D11). -/
def Obligations.ResetLeavesTheTabledValues : Prop :=
  (∀ c, State.reset.memRead c = 0x00) ∧
  (∀ r : RegId, r ≠ 7 → State.reset.readReg r = 0x00) ∧ State.reset.readReg 7 = 0xF4 ∧
  State.reset.pc = 0x00 ∧ State.reset.status = .idle ∧
  State.reset.fault = { cause := 0, pc := 0, opcode := 0, operand := 0, slot := 0 } ∧
  State.reset.output = []

/-! ### The step -/

/-- A step of a Running core is the execution of the instruction that the three bytes at `pc`, `pc + 1` and `pc + 2`
(modulo 256, decision D2) decode to; the step adds nothing around it, since the register check, the advance and the halt
are part of `exec` (rules R81 to R89). -/
def Obligations.StepRunsTheDecodedInstruction : Prop :=
  ∀ (s : State) (i : Instr), s.status = .running →
    decode { op := s.memRead s.pc, a := s.memRead (s.pc + 1), b := s.memRead (s.pc + 2) } = .ok i →
    step s = exec i s

/-- The same from the bytes of the instruction: when memory holds them from `pc` up (modulo 256), the step runs it,
whatever the bytes after it are (rules R61, R71, R81). -/
def Obligations.StepRunsTheEncodedInstruction : Prop :=
  ∀ (s : State) (i : Instr), s.status = .running →
    (∀ k (h : k < (encode i).length), s.memRead (s.pc + BitVec.ofNat 8 k) = (encode i)[k]) →
    step s = exec i s

/-- A Running core takes UNKNOWN_OPCODE at any opcode byte outside the map, whatever the operand bytes are, with cause 1
and the opcode recorded and nothing else changed, and then takes no further step (rules R83, R171, R175; decisions D6,
D8, D9). -/
def Obligations.UnknownOpcodeTakesItsFault : Prop :=
  ∀ s : State, s.status = .running →
    s.memRead s.pc ∉ ([0x01, 0x82, 0x47, 0x84, 0xA0, 0xA1, 0xA2, 0xA8, 0xAA, 0x45, 0x46, 0x50, 0x11, 0x54] : List Byte) →
    ∃ t, step s = .next t ∧ FaultTaken 1 (s.memRead s.pc) 0 0 s t ∧ step t = .fault .faulted

/-- An instruction with a register operand that names no register takes ILLEGAL_REGISTER for the first such operand and
changes nothing else (rules R84, R172, R175, R176; decisions D3, D8, D9, D10). -/
def Obligations.FirstIllegalOperandTakesItsFault : Prop :=
  ∀ (i : Instr) (s : State) (slot byte : Byte), firstIllegal i = some (slot, byte) →
    ∃ t, exec i s = .next t ∧ IllegalRegisterTaken i.opcode byte slot s t

/-- Every instruction whose register operands name registers completes without a fault, and only HLT changes the run state
(rule R91, which the spec derives). -/
def Obligations.LegalOperandsCompleteWithoutFault : Prop :=
  ∀ (i : Instr) (s : State), i.wf = true →
    ∃ t, exec i s = .next t ∧ t.fault = s.fault ∧ t.status = if i = .hlt then .halted else s.status

/-- A Running core always has a step, and the fault that its instruction has pending decides which: that fault, with
nothing but the run state and the record written, or an instruction that completes with the record as it was (rules R80,
R91, R175, R176; decisions D7 to D10). -/
def Obligations.PendingFaultDecidesTheStep : Prop :=
  ∀ s : State, s.status = .running →
    (∀ r, pendingFault s = some r → step s = .next { s with status := .faulted, fault := r }) ∧
    (pendingFault s = none → ∃ t, step s = .next t ∧ t.status ≠ .faulted ∧ t.fault = s.fault)

/-- The core takes a step only while Running: it stops in Idle, Halted and Faulted, under a name for each (rule R80,
decision D7; the three names are the model's choice, log entry 2). -/
def Obligations.StepsOnlyWhileRunning : Prop :=
  ∀ s : State,
    (∀ t, step s = .next t → s.status = .running) ∧
    (s.status = .idle → step s = .fault .notStarted) ∧
    (s.status = .halted → step s = .fault .halted) ∧
    (s.status = .faulted → step s = .fault .faulted)

/-- A step ends the run cleanly exactly when the opcode at `pc` is HLT's, ends it by a fault exactly when a fault is
pending, and otherwise leaves the core Running; no step leads to Idle (rule R101, which the spec derives). -/
def Obligations.OnlyHltEndsARunCleanly : Prop :=
  ∀ s t : State, step s = .next t →
    (t.status = .halted ↔ s.memRead s.pc = 0x01) ∧
    (t.status = .faulted ↔ pendingFault s ≠ none) ∧
    t.status ≠ .idle

/-- An instruction whose sets-pc bit is clear moves `pc` by its length, modulo 256, and by nothing else (rules R28, R86;
decision D2). -/
def Obligations.PlainInstructionsAdvanceByTheirLength : Prop :=
  ∀ (i : Instr) (s : State), i.wf = true → setsPc i.opcode = false →
    ∃ t, exec i s = .next t ∧ t.pc.toNat = (s.pc.toNat + operandCount i.opcode + 1) % 256

/-- Memory changes only where ST, PUSH and CALL store: at `x[a]`, and at `sp` after its decrement (rule R43, which the
spec derives). -/
def Obligations.OnlyStoresChangeMemory : Prop :=
  ∀ (i : Instr) (s t : State), exec i s = .next t →
    ∀ c, c ∉ storeCells i s → t.memRead c = s.memRead c

/-- Registers change only where the table of rule R24, which the spec derives, says so. -/
def Obligations.OnlyTabledRegistersChange : Prop :=
  ∀ (i : Instr) (s t : State), exec i s = .next t →
    ∀ r, r ∉ writtenRegs i → t.readReg r = s.readReg r

/-- The output stream only grows, by PRN alone and by the byte in PRN's register (rules R35, R182; decision D11). -/
def Obligations.OnlyPrnEmits : Prop :=
  ∀ (i : Instr) (s t : State), exec i s = .next t →
    (∀ a r, i = .prn a → Names a r → t.output = s.output ++ [s.readReg r]) ∧
    ((∀ a, i ≠ .prn a) → t.output = s.output)

/-- A store is seen by the next fetch, also where it hits the bytes at the new `pc`, and the storing instruction uses the
operands it fetched, also where it overwrites them (rules R55, R81, R207; decision D2 for the addresses). -/
def Obligations.StoresAreSeenByTheNextFetchOnly : Prop :=
  ∀ (s : State) (a b : Byte) (ra rb : RegId), s.status = .running → fetch s = { op := 0x84, a := a, b := b } →
    Names a ra → Names b rb →
    ∃ t, step s = .next t ∧ t.memRead (s.readReg ra) = s.readReg rb ∧
      fetch t =
        { op := if s.pc + 3 = s.readReg ra then s.readReg rb else s.memRead (s.pc + 3)
          a := if s.pc + 4 = s.readReg ra then s.readReg rb else s.memRead (s.pc + 4)
          b := if s.pc + 5 = s.readReg ra then s.readReg rb else s.memRead (s.pc + 5) }

/-- Rule R113: no instruction but POP brings a byte of memory into a register, and none but RET brings one to `pc`: with
another memory in its place, the others leave the same registers, `pc` and output. -/
def Obligations.OnlyPopAndRetReadMemory : Prop :=
  ∀ (i : Instr) (s t t' : State) (m : Memory), exec i s = .next t → exec i { s with mem := m } = .next t' →
    ((∀ a, i ≠ .pop a) → t'.regs = t.regs) ∧ (i ≠ .ret → t'.pc = t.pc) ∧ t'.output = t.output

/-! ### Invariants -/

/-- The invariant holds after reset (rule R37; decisions D7, D8; the canonical form of memory is the model's choice, log
entry 1). -/
def Obligations.ResetMeetsTheInvariant : Prop := State.reset.Inv

/-- Every step keeps the invariant: memory stays canonical, and a Faulted core's record is the fault of the instruction
still standing at its `pc` (rules R33, R175; decisions D8, D9; the canonical form of memory is the model's choice, log
entry 1). -/
def Obligations.EveryStepKeepsTheInvariant : Prop :=
  ∀ s t : State, s.Inv → step s = .next t → t.Inv

/-- Every interaction of the host keeps the invariant (rules R200 to R205; decisions D12, D19; the canonical form of memory
and the interactions as functions beside `step` are the model's choices, log entries 1 and 15). -/
def Obligations.EveryHostActionKeepsTheInvariant : Prop :=
  ∀ (act : HostAction) (s : State), s.Inv → (hostAct act s).2.Inv

/-- Every state that reset, steps and the host's interactions lead to, in any order, meets the invariant (rules R33, R88,
R175, R205; decisions D8, D9, D19; the canonical form of memory and the host's interactions as functions beside `step` are
the model's choices, log entries 1 and 15). -/
def Obligations.ReachableStatesMeetTheInvariant : Prop :=
  ∀ s : State, Reachable s → s.Inv

/-- Rule R173: UnsupportedALUOperation is never raised, so a host never sees code 3. -/
def Obligations.ReservedFaultCodeIsNeverSeen : Prop :=
  ∀ s : State, Reachable s → s.fault.cause ≠ 3 ∧
    ∀ act code record, (hostAct act s).1 = .runStatus code record → record.cause ≠ 3

/-- What a program does depends on memory, registers and `pc` alone: two Running cores that agree on them step to states
that agree on them, on the run state, on what they emit, and on the fault they take (rules R20, R31; decision D7). -/
def Obligations.NoInstructionReadsOutputOrFaultRecord : Prop :=
  ∀ s s' t : State, SameVisible s s' → s.status = .running → s'.status = .running → step s = .next t →
    ∃ t', step s' = .next t' ∧ SameVisible t t' ∧ t'.status = t.status ∧
      (∃ emitted, t.output = s.output ++ emitted ∧ t'.output = s'.output ++ emitted) ∧
      (t.status = .faulted → t'.fault = t.fault)

/-! ### System and output -/

/-- Rule R100: HLT advances `pc` by 1 (modulo 256) and halts, changing nothing else; the bytes after it are not used; it
raises nothing; and no later step is taken. -/
def Obligations.HltHaltsAfterTheAdvance : Prop :=
  encode .hlt = [0x01] ∧ operandCount 0x01 = 0 ∧ setsPc 0x01 = false ∧
  (∀ a b : Byte, decode { op := 0x01, a := a, b := b } = .ok .hlt) ∧
  ∀ s : State, ∃ t, exec .hlt s = .next t ∧ t.pc.toNat = (s.pc.toNat + 1) % 256 ∧ t.status = .halted ∧
    (∀ r, t.readReg r = s.readReg r) ∧ (∀ c, t.memRead c = s.memRead c) ∧
    t.output = s.output ∧ t.fault = s.fault ∧ step t = .fault .halted

/-- Rule R102: PRN appends its register's byte, shown as an unsigned number (decisions D11, D17), and advances by 2;
ILLEGAL_REGISTER is taken before any output (decision D3). -/
def Obligations.PrnEmitsItsRegister : Prop :=
  OneRegisterRule 0x47 false .prn fun ra s t =>
    t.pc = s.pc + 2 ∧ OnlyChanges [] [] [s.readReg ra] s t ∧
    shownNumbers t = shownNumbers s ++ [(s.readReg ra).toNat]

/-! ### Data transfer -/

/-- Rule R110: LDI writes its immediate, any byte, to its register and advances by 3; ILLEGAL_REGISTER is taken for
operand a alone (decision D3). -/
def Obligations.LdiLoadsItsImmediate : Prop :=
  operandCount 0x82 = 2 ∧ setsPc 0x82 = false ∧
  ∀ (a imm : Byte) (s : State),
    encode (.ldi a imm) = [0x82, a, imm] ∧ decode { op := 0x82, a := a, b := imm } = .ok (.ldi a imm) ∧
    (∀ ra, Names a ra → ∃ t, exec (.ldi a imm) s = .next t ∧
      t.readReg ra = imm ∧ t.pc = s.pc + 3 ∧ OnlyChanges [ra] [] [] s t) ∧
    (8 ≤ a.toNat → ∃ t, exec (.ldi a imm) s = .next t ∧ IllegalRegisterTaken 0x82 a 1 s t)

/-- LDI followed by PRN on the same register emits the loaded immediate (the source's property, quoted in rule R110). -/
def Obligations.LdiThenPrnEmitsTheImmediate : Prop :=
  ∀ (a imm : Byte) (s : State), namesRegister a = true →
    ∃ t, execAll [.ldi a imm, .prn a] s = some t ∧ t.output = s.output ++ [imm] ∧ t.pc = s.pc + 5

/-- Rule R112: ST stores `x[b]` at the address `x[a]`, changes nothing else and advances by 3 (decision D6 for the opcode
value, D3 for ILLEGAL_REGISTER). -/
def Obligations.StStoresAtTheAddressInItsFirstRegister : Prop :=
  TwoRegisterRule 0x84 .st fun ra rb s t =>
    t.memRead (s.readReg ra) = s.readReg rb ∧ OnlyChanges [] [s.readReg ra] [] s t

/-! ### The ALU -/

/-- Rule R123: ADD, modulo 256 (decision D1; D3 for ILLEGAL_REGISTER). -/
def Obligations.AddWritesTheSum : Prop :=
  TwoRegisterRule 0xA0 .add fun ra rb s t =>
    (t.readReg ra).toNat = ((s.readReg ra).toNat + (s.readReg rb).toNat) % 256 ∧ OnlyChanges [ra] [] [] s t

/-- Rule R124: SUB, the first operand minus the second, modulo 256 (decision D1; D3 for ILLEGAL_REGISTER, D6 for the
opcode value). -/
def Obligations.SubWritesTheDifference : Prop :=
  TwoRegisterRule 0xA1 .sub fun ra rb s t =>
    ((t.readReg ra).toNat : Int) = ((s.readReg ra).toNat - (s.readReg rb).toNat : Int) % 256 ∧
    OnlyChanges [ra] [] [] s t

/-- Rule R125: MUL, the low 8 bits of the product (decision D1; D3 for ILLEGAL_REGISTER, D6 for the opcode value). -/
def Obligations.MulWritesTheLowProduct : Prop :=
  TwoRegisterRule 0xA2 .mul fun ra rb s t =>
    (t.readReg ra).toNat = ((s.readReg ra).toNat * (s.readReg rb).toNat) % 256 ∧ OnlyChanges [ra] [] [] s t

/-- Rule R126: AND, bit by bit (decision D3 for ILLEGAL_REGISTER, D6 for the opcode value). -/
def Obligations.AndWritesTheBitwiseAnd : Prop :=
  TwoRegisterRule 0xA8 .and fun ra rb s t =>
    (∀ k, k < 8 → ((t.readReg ra).getLsbD k = true ↔
      (s.readReg ra).getLsbD k = true ∧ (s.readReg rb).getLsbD k = true)) ∧ OnlyChanges [ra] [] [] s t

/-- Rule R127: OR, bit by bit (decision D3 for ILLEGAL_REGISTER, D6 for the opcode value). -/
def Obligations.OrWritesTheBitwiseOr : Prop :=
  TwoRegisterRule 0xAA .or fun ra rb s t =>
    (∀ k, k < 8 → ((t.readReg ra).getLsbD k = true ↔
      (s.readReg ra).getLsbD k = true ∨ (s.readReg rb).getLsbD k = true)) ∧ OnlyChanges [ra] [] [] s t

/-- Rules R120 and R128: each ALU operation reads both registers, writes its result to the first and nothing else, not
even `pc`, and leaves the second as it was; where the two are one register, both reads come before the write. -/
def Obligations.AluWritesOnlyItsFirstOperand : Prop :=
  ∀ (op : AluOp) (ra rb : RegId) (s : State),
    (aluAction op ra rb s).readReg ra = op.result (s.readReg ra) (s.readReg rb) ∧
    (∀ r, r ≠ ra → (aluAction op ra rb s).readReg r = s.readReg r) ∧
    (aluAction op ra ra s).readReg ra = op.result (s.readReg ra) (s.readReg ra) ∧
    (∀ c, (aluAction op ra rb s).memRead c = s.memRead c) ∧
    (aluAction op ra rb s).pc = s.pc ∧ (aluAction op ra rb s).status = s.status ∧
    (aluAction op ra rb s).fault = s.fault ∧ (aluAction op ra rb s).output = s.output

/-- The low 8 bits of a sum, a difference and a product are the same for signed operands as for unsigned ones (rule R122,
which the spec derives; decision D1). -/
def Obligations.AluLowByteIgnoresSignedness : Prop :=
  ∀ x y : Byte,
    (AluOp.result .add x y).toInt = (x.toInt + y.toInt).bmod 256 ∧
    (AluOp.result .sub x y).toInt = (x.toInt - y.toInt).bmod 256 ∧
    (AluOp.result .mul x y).toInt = (x.toInt * y.toInt).bmod 256

/-! ### The stack -/

/-- Rule R141: PUSH decrements `sp`, then stores its register at the new `sp`; PUSH R7 stores the decremented value
(decisions D2, D15; D3 for ILLEGAL_REGISTER, D6 for the opcode value). -/
def Obligations.PushStoresBelowTheStackPointer : Prop :=
  OneRegisterRule 0x45 false .push fun ra s t =>
    t.pc = s.pc + 2 ∧ t.sp = s.sp - 1 ∧
    t.memRead (s.sp - 1) = (if ra = 7 then s.sp - 1 else s.readReg ra) ∧
    OnlyChanges [7] [s.sp - 1] [] s t

/-- Rule R142: POP loads its register from `sp`, then increments `sp`; POP R7 increments the loaded value (decisions D2,
D15; D3 for ILLEGAL_REGISTER, D6 for the opcode value). -/
def Obligations.PopLoadsFromTheStackPointer : Prop :=
  OneRegisterRule 0x46 false .pop fun ra s t =>
    t.pc = s.pc + 2 ∧
    (ra ≠ 7 → t.readReg ra = s.memRead s.sp ∧ t.sp = s.sp + 1) ∧
    (ra = 7 → t.sp = s.memRead s.sp + 1) ∧
    OnlyChanges [7, ra] [] [] s t

/-- Rule R144, which the spec derives: PUSH then POP on one register, R7 included, restores it and `sp`, and leaves the
pushed byte below. -/
def Obligations.PushThenPopRestores : Prop :=
  ∀ (a : Byte) (ra : RegId) (s : State), Names a ra →
    ∃ t, execAll [.push a, .pop a] s = some t ∧ OnlyChanges [] [s.sp - 1] [] s t ∧
      t.memRead (s.sp - 1) = (if ra = 7 then s.sp - 1 else s.readReg ra) ∧ t.pc = s.pc + 4

/-- Rule R144, which the spec derives: PUSH of one register then POP into another copies it and restores `sp`, but for
the updates of `sp` that R7 as either operand sees (decision D15). -/
def Obligations.PushThenPopElsewhereCopies : Prop :=
  ∀ (a c : Byte) (ra rc : RegId) (s : State), Names a ra → Names c rc →
    ∃ t, execAll [.push a, .pop c] s = some t ∧
      (ra ≠ 7 → rc ≠ 7 → t.readReg rc = s.readReg ra ∧ t.sp = s.sp) ∧
      (ra = 7 → rc ≠ 7 → t.readReg rc = s.sp - 1 ∧ t.sp = s.sp) ∧
      (ra ≠ 7 → rc = 7 → t.sp = s.readReg ra + 1) ∧
      OnlyChanges [7, rc] [s.sp - 1] [] s t

/-- Rule R143: after `n` PUSHes with no POP the stack pointer is `n` lower, modulo 256, and no PUSH faults; from the reset
value it is 0xF4 - n (decision D2). -/
def Obligations.PushesLowerTheStackPointer : Prop :=
  ∀ (bytes : List Byte) (s : State), bytes.all namesRegister = true →
    ∃ t, execAll (bytes.map .push) s = some t ∧ t.sp = s.sp - BitVec.ofNat 8 bytes.length ∧ t.fault = s.fault ∧
      (s.sp = State.reset.sp → t.sp = 0xF4 - BitVec.ofNat 8 bytes.length)

/-! ### Control transfer -/

/-- Rule R151: CALL pushes its own address plus 2 (conflict C1, decision D5) and jumps to its register, which for R7 is the
decremented `sp` (decisions D2, D15; D3 for ILLEGAL_REGISTER, D6 for the opcode value). -/
def Obligations.CallPushesTheReturnAddress : Prop :=
  OneRegisterRule 0x50 true .call fun ra s t =>
    t.sp = s.sp - 1 ∧ t.memRead (s.sp - 1) = s.pc + 2 ∧
    t.pc = (if ra = 7 then s.sp - 1 else s.readReg ra) ∧
    OnlyChanges [7] [s.sp - 1] [] s t

/-- Rule R152: RET takes `pc` from the stack and increments `sp`; it has no operands, the bytes after it are not used, and
it raises nothing (decision D2; D6 for the opcode value). -/
def Obligations.RetPopsTheProgramCounter : Prop :=
  encode .ret = [0x11] ∧ operandCount 0x11 = 0 ∧ setsPc 0x11 = true ∧
  (∀ a b : Byte, decode { op := 0x11, a := a, b := b } = .ok .ret) ∧
  ∀ s : State, ∃ t, exec .ret s = .next t ∧ t.pc = s.memRead s.sp ∧ t.sp = s.sp + 1 ∧ OnlyChanges [7] [] [] s t

/-- Rule R153: JMP sets `pc` to its register and changes nothing else (decision D3 for ILLEGAL_REGISTER, D6 for the opcode
value). -/
def Obligations.JmpGoesToItsRegister : Prop :=
  OneRegisterRule 0x54 true .jmp fun ra s t => t.pc = s.readReg ra ∧ OnlyChanges [] [] [] s t

/-- Rule R155, which the spec derives: a RET that finds `sp` and the cell there as a CALL left them resumes at the byte
after the CALL's two bytes, with `sp` as it was before the CALL (decisions D2, D5). -/
def Obligations.RetAfterCallResumesBehindIt : Prop :=
  ∀ (a : Byte) (s : State), namesRegister a = true →
    ∃ t, exec (.call a) s = .next t ∧
      ∀ u : State, u.sp = t.sp → u.memRead t.sp = t.memRead t.sp →
        ∃ v, exec .ret u = .next v ∧ v.pc = s.pc + 2 ∧ v.sp = s.sp

/-- A JMP to its own address steps to the same state, so the run never ends: after any number of steps the core is as it
was (rules R153, R206; decision D6 for the opcode value). -/
def Obligations.JumpToItselfNeverEnds : Prop :=
  ∀ (s : State) (ra : RegId), s.status = .running → s.memRead s.pc = 0x54 →
    Names (s.memRead (s.pc + 1)) ra → s.readReg ra = s.pc →
    ∀ n, Host.Core.run core n s = .next s

/-! ### The host -/

/-- Rule R201: a load in Idle of at most 256 bytes is accepted and copies the image to address 0 up, changing nothing
else; any other load is refused and changes nothing (decision D12). -/
def Obligations.LoadCopiesTheImageOrIsRefused : Prop :=
  ∀ (image : List Byte) (s : State),
    (s.status = .idle → image.length ≤ 256 →
      (hostAct (.load image) s).1 = .accepted ∧
      (∀ c : Byte, (hostAct (.load image) s).2.memRead c = image.getD c.toNat (s.memRead c)) ∧
      (∀ r, (hostAct (.load image) s).2.readReg r = s.readReg r) ∧
      (hostAct (.load image) s).2.pc = s.pc ∧ (hostAct (.load image) s).2.status = s.status ∧
      (hostAct (.load image) s).2.fault = s.fault ∧ (hostAct (.load image) s).2.output = s.output) ∧
    (s.status ≠ .idle ∨ 256 < image.length → hostAct (.load image) s = (.refused, s))

/-- Rule R202: start makes an Idle core Running and changes nothing else; in any other run state it has no effect
(decisions D4, D23). -/
def Obligations.StartOnlyLeavesIdle : Prop :=
  ∀ s : State,
    (s.status = .idle → (hostAct .start s).2 = { s with status := .running }) ∧
    (s.status ≠ .idle → (hostAct .start s).2 = s)

/-- Rules R185, R200 and R204: once the core is out of Idle the host changes nothing but by reset, and reset puts every
piece of state to its reset value from any state (decisions D16, D19, D20). -/
def Obligations.OnlyResetChangesAStartedCore : Prop :=
  ∀ (act : HostAction) (s : State),
    (s.status ≠ .idle → act ≠ .reset → (hostAct act s).2 = s) ∧ (hostAct .reset s).2 = State.reset

/-- Rule R203, which the spec derives: reset, load and start, in that order, leave a Running core that fetches the image's
first bytes at address 0, with the stack pointer at 0xF4; and the first step of an empty image faults at once on the
byte 0x00 (rule R201; decisions D4, D12). -/
def Obligations.BootRunsTheImageFromAddressZero : Prop :=
  (∀ (image : List Byte) (s : State), image.length ≤ 256 →
    let booted := hostStart (hostLoad image (hostReset s))
    booted.status = .running ∧ booted.pc = 0 ∧ booted.sp = 0xF4 ∧ fetch booted = Fetched.ofBytes image ∧
      ∀ i, decode (Fetched.ofBytes image) = .ok i → step booted = exec i booted) ∧
  ∀ s : State, ∃ t, step (hostStart (hostLoad [] (hostReset s))) = .next t ∧ t.status = .faulted ∧
    t.fault = { cause := 1, pc := 0, opcode := 0, operand := 0, slot := 0 }

/-- Rules R184 and R205: inspection gives `pc`, the three bytes there (modulo 256) and the registers, status gives the run
state's code and the fault record, output gives the stream, and none of them changes the core (decisions D2, D7, D18). -/
def Obligations.HostReadsChangeNothing : Prop :=
  ∀ s : State,
    (hostAct .inspect s).1 =
      .inspection ⟨s.pc, ⟨s.memRead s.pc, s.memRead (s.pc + 1), s.memRead (s.pc + 2)⟩, s.regs⟩ ∧
    (hostAct .inspect s).2 = s ∧
    hostAct .output s = (.bytes s.output, s) ∧
    hostAct .status s = (.runStatus (match s.status with
      | .idle => 0b00 | .running => 0b01 | .halted => 0b10 | .faulted => 0b11) s.fault, s)

/-- An opcode-table word placed at `pc` is the instruction that the next step runs (the model's loading convention, log
entry 17). -/
def Obligations.PlacedWordIsRunByTheNextStep : Prop :=
  ∀ (s : State) (nbits w : Nat) (i : Instr), decodeTableWord nbits w = some i →
    step (s.withFetchWord nbits w) = exec i (s.withFetchWord nbits w)
end

