-- ==== Sys2Proof/Laws/Decode.lean ====
section
/-!
SUPPORT. The decoder: each opcode's dispatch, the opcodes it accepts, and what an accepted byte triple is.
-/

namespace Sys2Proof

/-- The decoder rejects by the name of the fetched opcode only. -/
theorem decode_error {f : Fetched} {e : DecodeError} (h : decode f = .error e) : e = .unknownOpcode f.op := by
  unfold decode at h
  split at h
  · cases h
  · cases h
    rfl

/-- What the decoder accepts: the opcode is the instruction's, and the bytes it uses are its operands. -/
theorem decode_ok {f : Fetched} {i : Instr} (h : decode f = .ok i) :
    i.opcode = f.op ∧ i.operands = [f.a, f.b].take i.format.operandBytes := by
  unfold decode at h
  split at h
  · rename_i row hrow
    have hop : row.1 = f.op := by simpa using List.find?_some hrow
    have hmem := List.mem_of_find?_eq_some hrow
    simp only [opcodeMap, List.mem_append, List.mem_cons, List.not_mem_nil, or_false] at hmem
    cases h
    rw [← hop]
    obtain (((rfl | rfl | rfl | rfl) | (rfl | rfl | rfl | rfl | rfl)) | (rfl | rfl | rfl | rfl | rfl)) := hmem <;>
      exact ⟨rfl, rfl⟩
  · cases h

/-- The decoder gives an instruction exactly when the opcode and the used operand bytes are that instruction's. -/
theorem decode_eq_iff {f : Fetched} {i : Instr} :
    decode f = .ok i ↔ i.opcode = f.op ∧ i.operands = [f.a, f.b].take i.format.operandBytes := by
  refine ⟨decode_ok, fun ⟨hop, hops⟩ => ?_⟩
  obtain ⟨op, a, b⟩ := f
  simp only at hop hops
  subst hop
  cases i <;> simp_all [Instr.operands, Instr.format, Format.operandBytes] <;> rfl

end Sys2Proof
end

