-- ==== Sys2Proof/Laws/State.lean ====
section
/-!
SUPPORT. One lemma for each field of the state under each update, and the register file's laws.
-/

namespace Sys2Proof.Machine

variable (s : State)

@[simp] theorem memWrite_regs (a v : Byte) : (s.memWrite a v).regs = s.regs := rfl
@[simp] theorem memWrite_pc (a v : Byte) : (s.memWrite a v).pc = s.pc := rfl
@[simp] theorem memWrite_status (a v : Byte) : (s.memWrite a v).status = s.status := rfl
@[simp] theorem memWrite_fault (a v : Byte) : (s.memWrite a v).fault = s.fault := rfl
@[simp] theorem memWrite_output (a v : Byte) : (s.memWrite a v).output = s.output := rfl

@[simp] theorem writeReg_mem (r : RegId) (v : Byte) : (s.writeReg r v).mem = s.mem := rfl
@[simp] theorem writeReg_pc (r : RegId) (v : Byte) : (s.writeReg r v).pc = s.pc := rfl
@[simp] theorem writeReg_status (r : RegId) (v : Byte) : (s.writeReg r v).status = s.status := rfl
@[simp] theorem writeReg_fault (r : RegId) (v : Byte) : (s.writeReg r v).fault = s.fault := rfl
@[simp] theorem writeReg_output (r : RegId) (v : Byte) : (s.writeReg r v).output = s.output := rfl

@[simp] theorem setPc_mem (p : Byte) : (s.setPc p).mem = s.mem := rfl
@[simp] theorem setPc_regs (p : Byte) : (s.setPc p).regs = s.regs := rfl
@[simp] theorem setPc_pc (p : Byte) : (s.setPc p).pc = p := rfl
@[simp] theorem setPc_status (p : Byte) : (s.setPc p).status = s.status := rfl
@[simp] theorem setPc_fault (p : Byte) : (s.setPc p).fault = s.fault := rfl
@[simp] theorem setPc_output (p : Byte) : (s.setPc p).output = s.output := rfl

@[simp] theorem setStatus_mem (u : RunState) : (s.setStatus u).mem = s.mem := rfl
@[simp] theorem setStatus_regs (u : RunState) : (s.setStatus u).regs = s.regs := rfl
@[simp] theorem setStatus_pc (u : RunState) : (s.setStatus u).pc = s.pc := rfl
@[simp] theorem setStatus_status (u : RunState) : (s.setStatus u).status = u := rfl
@[simp] theorem setStatus_fault (u : RunState) : (s.setStatus u).fault = s.fault := rfl
@[simp] theorem setStatus_output (u : RunState) : (s.setStatus u).output = s.output := rfl

@[simp] theorem out_mem (v : Byte) : (s.out v).mem = s.mem := rfl
@[simp] theorem out_regs (v : Byte) : (s.out v).regs = s.regs := rfl
@[simp] theorem out_pc (v : Byte) : (s.out v).pc = s.pc := rfl
@[simp] theorem out_status (v : Byte) : (s.out v).status = s.status := rfl
@[simp] theorem out_fault (v : Byte) : (s.out v).fault = s.fault := rfl
@[simp] theorem out_output (v : Byte) : (s.out v).output = s.output ++ [v] := rfl

section
variable (cause : FaultCause) (op operand : Byte) (slot : FaultSlot)
@[simp] theorem raiseFault_mem : (s.raiseFault cause op operand slot).mem = s.mem := rfl
@[simp] theorem raiseFault_regs : (s.raiseFault cause op operand slot).regs = s.regs := rfl
@[simp] theorem raiseFault_pc : (s.raiseFault cause op operand slot).pc = s.pc := rfl
@[simp] theorem raiseFault_status : (s.raiseFault cause op operand slot).status = .faulted := rfl
@[simp] theorem raiseFault_fault : (s.raiseFault cause op operand slot).fault =
    { cause := cause.code, pc := s.pc, opcode := op, operand := operand, slot := slot.code } := rfl
@[simp] theorem raiseFault_output : (s.raiseFault cause op operand slot).output = s.output := rfl
end

/-! ### The advance changes `pc` alone -/

theorem advance_eq_setPc (op : Byte) : ∃ p, s.advance op = s.setPc p := by
  unfold State.advance
  split
  · exact ⟨s.pc, rfl⟩
  · exact ⟨_, rfl⟩

@[simp] theorem advance_mem (op : Byte) : (s.advance op).mem = s.mem := by
  obtain ⟨p, h⟩ := advance_eq_setPc s op
  rw [h, setPc_mem]

@[simp] theorem advance_regs (op : Byte) : (s.advance op).regs = s.regs := by
  obtain ⟨p, h⟩ := advance_eq_setPc s op
  rw [h, setPc_regs]

@[simp] theorem advance_status (op : Byte) : (s.advance op).status = s.status := by
  obtain ⟨p, h⟩ := advance_eq_setPc s op
  rw [h, setPc_status]

@[simp] theorem advance_fault (op : Byte) : (s.advance op).fault = s.fault := by
  obtain ⟨p, h⟩ := advance_eq_setPc s op
  rw [h, setPc_fault]

@[simp] theorem advance_output (op : Byte) : (s.advance op).output = s.output := by
  obtain ⟨p, h⟩ := advance_eq_setPc s op
  rw [h, setPc_output]

theorem advance_pc (op : Byte) :
    (s.advance op).pc = if setsPc op then s.pc else s.pc + BitVec.ofNat 8 (instructionLength op) := by
  unfold State.advance
  split <;> rfl

/-! ### Registers -/

theorem readReg_congr {s t : State} (h : t.regs = s.regs) (r : RegId) : t.readReg r = s.readReg r := by
  simp only [State.readReg, h]

theorem readReg_writeReg (r r' : RegId) (v : Byte) :
    (s.writeReg r v).readReg r' = if r = r' then v else s.readReg r' := by
  simp only [State.readReg, State.writeReg, Vector.get_eq_getElem, Vector.getElem_set, Fin.ext_iff]

@[simp] theorem readReg_writeReg_same (r : RegId) (v : Byte) : (s.writeReg r v).readReg r = v := by
  rw [readReg_writeReg, if_pos rfl]

theorem readReg_writeReg_other {r r' : RegId} (h : r ≠ r') (v : Byte) :
    (s.writeReg r v).readReg r' = s.readReg r' := by
  rw [readReg_writeReg, if_neg h]

@[simp] theorem readReg_memWrite (a v : Byte) (r : RegId) : (s.memWrite a v).readReg r = s.readReg r := rfl
@[simp] theorem readReg_setPc (p : Byte) (r : RegId) : (s.setPc p).readReg r = s.readReg r := rfl
@[simp] theorem readReg_setStatus (u : RunState) (r : RegId) : (s.setStatus u).readReg r = s.readReg r := rfl
@[simp] theorem readReg_out (v : Byte) (r : RegId) : (s.out v).readReg r = s.readReg r := rfl
@[simp] theorem readReg_raiseFault (cause : FaultCause) (op operand : Byte) (slot : FaultSlot) (r : RegId) :
    (s.raiseFault cause op operand slot).readReg r = s.readReg r := rfl
@[simp] theorem readReg_advance (op : Byte) (r : RegId) : (s.advance op).readReg r = s.readReg r :=
  readReg_congr (advance_regs s op) r

theorem sp_eq_readReg : s.sp = s.readReg 7 := rfl
theorem setSp_eq_writeReg (v : Byte) : s.setSp v = s.writeReg 7 v := rfl
theorem decSp_eq_writeReg : s.decSp = s.writeReg 7 (s.readReg 7 - 1) := rfl
theorem incSp_eq_writeReg : s.incSp = s.writeReg 7 (s.readReg 7 + 1) := rfl

@[simp] theorem sp_decSp : s.decSp.sp = s.sp - 1 := readReg_writeReg_same s 7 _
@[simp] theorem sp_incSp : s.incSp.sp = s.sp + 1 := readReg_writeReg_same s 7 _

/-- Two states with equal registers read equal are equal register files. -/
theorem regs_ext {s t : State} (h : ∀ r, t.readReg r = s.readReg r) : t.regs = s.regs := by
  refine Vector.ext fun k hk => ?_
  exact h ⟨k, hk⟩

end Sys2Proof.Machine
end

