-- ==== Sys2Proof/Laws/Memory.lean ====
section
/-!
SUPPORT. Memory: a read after a write, the canonical form under every operation, and that canonical memories that read
alike are equal.
-/

namespace Sys2Proof.Machine

/-! ### Reading after writing -/

theorem lookup_erase (m : Memory) (k j : Nat) :
    (m.erase k).lookup j = if j = k then Memory.unlisted else m.lookup j := by
  induction m with
  | nil => simp [Memory.erase, Memory.lookup]
  | cons c rest ih =>
    simp only [Memory.erase] at ih
    by_cases hc : c.1 = k
    · simp only [Memory.erase, List.filter_cons, hc, bne_self_eq_false, Bool.false_eq_true, if_false, ih,
        Memory.lookup]
      grind
    · simp only [Memory.erase, List.filter_cons, bne_iff_ne, ne_eq, hc, not_false_eq_true, if_true, Memory.lookup, ih]
      grind

theorem lookup_insert (m : Memory) (k j : Nat) (v : Byte) (hk : ∀ c ∈ m, c.1 ≠ k) :
    (m.insert k v).lookup j = if j = k then v else m.lookup j := by
  induction m with
  | nil => simp [Memory.insert, Memory.lookup, eq_comm]
  | cons c rest ih =>
    have hc : c.1 ≠ k := hk c (by simp)
    have ih := ih fun d hd => hk d (by simp [hd])
    simp only [Memory.insert]
    split <;> simp only [Memory.lookup] <;> grind

theorem not_mem_erase (m : Memory) (k : Nat) : ∀ c ∈ m.erase k, c.1 ≠ k := by
  intro c hc
  have := (List.mem_filter.mp hc).2
  simpa using this

theorem lookup_update (m : Memory) (k j : Nat) (v : Byte) :
    (m.update k v).lookup j = if j = k then v else m.lookup j := by
  unfold Memory.update
  split
  · rename_i hv
    rw [lookup_erase, hv]
  · rw [lookup_insert _ _ _ _ (not_mem_erase m k), lookup_erase]
    grind

/-- What a read after a write gives: the byte written at its address, and every other cell as before (rule R42). -/
theorem memRead_memWrite (s : State) (addr v c : Byte) :
    (s.memWrite addr v).memRead c = if c = addr then v else s.memRead c := by
  simp only [State.memRead, State.memWrite, lookup_update]
  by_cases h : c = addr
  · simp [h]
  · rw [if_neg h, if_neg (fun h' => h (BitVec.eq_of_toNat_eq h'))]

@[simp] theorem memRead_memWrite_same (s : State) (addr v : Byte) : (s.memWrite addr v).memRead addr = v := by
  rw [memRead_memWrite, if_pos rfl]

theorem memRead_memWrite_other (s : State) {addr c : Byte} (h : c ≠ addr) (v : Byte) :
    (s.memWrite addr v).memRead c = s.memRead c := by
  rw [memRead_memWrite, if_neg h]

theorem memRead_congr {s t : State} (h : t.mem = s.mem) (c : Byte) : t.memRead c = s.memRead c := by
  simp only [State.memRead, h]

@[simp] theorem memRead_writeReg (s : State) (r : RegId) (v c : Byte) : (s.writeReg r v).memRead c = s.memRead c := rfl
@[simp] theorem memRead_setPc (s : State) (p c : Byte) : (s.setPc p).memRead c = s.memRead c := rfl
@[simp] theorem memRead_setStatus (s : State) (u : RunState) (c : Byte) :
    (s.setStatus u).memRead c = s.memRead c := rfl
@[simp] theorem memRead_out (s : State) (v c : Byte) : (s.out v).memRead c = s.memRead c := rfl
@[simp] theorem memRead_raiseFault (s : State) (cause : FaultCause) (op operand : Byte) (slot : FaultSlot) (c : Byte) :
    (s.raiseFault cause op operand slot).memRead c = s.memRead c := rfl
@[simp] theorem memRead_advance (s : State) (op c : Byte) : (s.advance op).memRead c = s.memRead c :=
  memRead_congr (advance_mem s op) c

/-! ### The canonical form -/

theorem wf_nil : Memory.wf [] := ⟨List.Pairwise.nil, by simp⟩

theorem wf_erase {m : Memory} (h : m.wf) (k : Nat) : (m.erase k).wf :=
  ⟨h.1.filter _, fun c hc => h.2 c (List.mem_filter.mp hc).1⟩

theorem mem_insert {m : Memory} {k : Nat} {v : Byte} {c : Host.Cell} :
    c ∈ m.insert k v ↔ c = (k, v) ∨ c ∈ m := by
  induction m with
  | nil => simp [Memory.insert]
  | cons d rest ih =>
    simp only [Memory.insert]
    split
    · simp
    · simp only [List.mem_cons, ih]
      tauto

theorem rising_insert {m : Memory} (h : m.Pairwise (fun c d => c.1 < d.1)) {k : Nat} (v : Byte)
    (hk : ∀ c ∈ m, c.1 ≠ k) : (m.insert k v).Pairwise (fun c d => c.1 < d.1) := by
  induction m with
  | nil => simp [Memory.insert]
  | cons c rest ih =>
    obtain ⟨hc, hrest⟩ := List.pairwise_cons.mp h
    have hne : c.1 ≠ k := hk c (by simp)
    simp only [Memory.insert]
    split
    · rename_i hlt
      refine List.pairwise_cons.mpr ⟨fun d hd => ?_, h⟩
      obtain rfl | hd := List.mem_cons.mp hd
      · exact hlt
      · exact Nat.lt_trans hlt (hc d hd)
    · rename_i hge
      refine List.pairwise_cons.mpr ⟨fun d hd => ?_, ih hrest fun d hd => hk d (by simp [hd])⟩
      obtain rfl | hd := mem_insert.mp hd
      · exact Nat.lt_of_le_of_ne (Nat.le_of_not_lt hge) hne
      · exact hc d hd

/-- Every write keeps the canonical form. -/
theorem wf_update {m : Memory} (h : m.wf) {k : Nat} (hk : k < Config.memorySize) (v : Byte) : (m.update k v).wf := by
  unfold Memory.update
  split
  · exact wf_erase h k
  · rename_i hv
    have he := wf_erase h k
    refine ⟨rising_insert he.1 v (not_mem_erase m k), fun c hc => ?_⟩
    obtain rfl | hc := mem_insert.mp hc
    · exact ⟨hk, hv⟩
    · exact he.2 c hc

theorem wf_memWrite {s : State} (h : s.mem.wf) (addr v : Byte) : (s.memWrite addr v).mem.wf :=
  wf_update h addr.isLt v

/-! ### Equal readings -/

theorem lookup_of_lt {m : Memory} {k : Nat} (h : ∀ c ∈ m, k < c.1) : m.lookup k = Memory.unlisted := by
  induction m with
  | nil => rfl
  | cons c rest ih =>
    have hc := h c (by simp)
    rw [Memory.lookup, if_neg (by omega)]
    exact ih fun d hd => h d (by simp [hd])

theorem wf_tail {c : Host.Cell} {m : Memory} (h : Memory.wf (c :: m)) : Memory.wf m :=
  ⟨(List.pairwise_cons.mp h.1).2, fun d hd => h.2 d (by simp [hd])⟩

end Sys2Proof.Machine
end

