-- ==== Sys2Proof/Laws/Operands.lean ====
section
/-!
SUPPORT. The register-operand check and the shared steps of Machine/Operands.lean: what each can answer, said once.
-/

namespace Sys2Proof.Machine

/-! ### The check -/

theorem regIndex_of_names {byte : Byte} {r : RegId} (h : Names byte r) : regIndex byte = some r := by
  unfold Names at h
  have hlt : byte.toNat < 8 := h ▸ r.isLt
  simp only [regIndex, dif_pos hlt, Option.some.injEq]
  exact Fin.ext h

theorem regIndex_of_ge {byte : Byte} (h : 8 ≤ byte.toNat) : regIndex byte = none :=
  dif_neg (Nat.not_lt.mpr h)

theorem names_of_regIndex {byte : Byte} {r : RegId} (h : regIndex byte = some r) : Names byte r := by
  unfold regIndex at h
  split at h
  · cases h
    rfl
  · cases h

theorem ge_of_regIndex {byte : Byte} (h : regIndex byte = none) : 8 ≤ byte.toNat := by
  unfold regIndex at h
  split at h
  · cases h
  · omega

theorem namesRegister_iff {byte : Byte} : namesRegister byte = true ↔ ∃ r, Names byte r := by
  simp only [namesRegister, decide_eq_true_eq]
  exact ⟨fun h => ⟨⟨_, h⟩, rfl⟩, fun ⟨r, h⟩ => h ▸ r.isLt⟩

/-! ### The shared steps -/

/-- The step of one register operand answers the fault for a, or the advanced action. -/
theorem withReg_cases (i : Instr) (a : Byte) (s : State) (action : RegId → State → State) :
    (∃ r, Names a r ∧ withReg i a s action = .next ((action r s).advance i.opcode)) ∨
    (8 ≤ a.toNat ∧ withReg i a s action = .next (s.raiseIllegalRegister i.opcode a .a)) := by
  cases h : regIndex a with
  | some r => exact .inl ⟨r, names_of_regIndex h, by simp only [withReg, h, completed]⟩
  | none => exact .inr ⟨ge_of_regIndex h, by simp only [withReg, h]⟩

theorem withReg_of_names {a : Byte} {r : RegId} (h : Names a r) (i : Instr) (s : State)
    (action : RegId → State → State) :
    withReg i a s action = .next ((action r s).advance i.opcode) := by
  simp only [withReg, regIndex_of_names h, completed]

theorem withReg_of_ge {a : Byte} (h : 8 ≤ a.toNat) (i : Instr) (s : State) (action : RegId → State → State) :
    withReg i a s action = .next (s.raiseIllegalRegister i.opcode a .a) := by
  simp only [withReg, regIndex_of_ge h]

/-- The step of two register operands answers the fault for a, the fault for b, or the advanced action. -/
theorem withTwoRegs_cases (i : Instr) (a b : Byte) (s : State) (action : RegId → RegId → State → State) :
    (∃ ra rb, Names a ra ∧ Names b rb ∧
      withTwoRegs i a b s action = .next ((action ra rb s).advance i.opcode)) ∨
    (8 ≤ a.toNat ∧ withTwoRegs i a b s action = .next (s.raiseIllegalRegister i.opcode a .a)) ∨
    (a.toNat < 8 ∧ 8 ≤ b.toNat ∧
      withTwoRegs i a b s action = .next (s.raiseIllegalRegister i.opcode b .b)) := by
  cases ha : regIndex a with
  | none => exact .inr (.inl ⟨ge_of_regIndex ha, by simp only [withTwoRegs, ha]⟩)
  | some ra =>
    have hna := names_of_regIndex ha
    cases hb : regIndex b with
    | none => exact .inr (.inr ⟨hna ▸ ra.isLt, ge_of_regIndex hb, by simp only [withTwoRegs, ha, hb]⟩)
    | some rb => exact .inl ⟨ra, rb, hna, names_of_regIndex hb, by simp only [withTwoRegs, ha, hb, completed]⟩

theorem withTwoRegs_of_names {a b : Byte} {ra rb : RegId} (ha : Names a ra) (hb : Names b rb) (i : Instr) (s : State)
    (action : RegId → RegId → State → State) :
    withTwoRegs i a b s action = .next ((action ra rb s).advance i.opcode) := by
  simp only [withTwoRegs, regIndex_of_names ha, regIndex_of_names hb, completed]

theorem withTwoRegs_of_ge_left {a : Byte} (h : 8 ≤ a.toNat) (i : Instr) (b : Byte) (s : State)
    (action : RegId → RegId → State → State) :
    withTwoRegs i a b s action = .next (s.raiseIllegalRegister i.opcode a .a) := by
  simp only [withTwoRegs, regIndex_of_ge h]

theorem withTwoRegs_of_ge_right {a b : Byte} (ha : a.toNat < 8) (hb : 8 ≤ b.toNat) (i : Instr) (s : State)
    (action : RegId → RegId → State → State) :
    withTwoRegs i a b s action = .next (s.raiseIllegalRegister i.opcode b .b) := by
  have hna : Names a ⟨a.toNat, ha⟩ := rfl
  simp only [withTwoRegs, regIndex_of_names hna, regIndex_of_ge hb]

/-! ### Taking ILLEGAL_REGISTER -/

theorem illegalRegister_taken (s : State) (op byte : Byte) (slot : FaultSlot) :
    IllegalRegisterTaken op byte slot.code s (s.raiseIllegalRegister op byte slot) :=
  ⟨rfl, rfl, fun _ => rfl, fun _ => rfl, rfl, rfl⟩

end Sys2Proof.Machine
end

