-- ==== Sys2Proof/Laws/Exec.lean ====
section
/-!
SUPPORT. The ALU's results, what each action does to each part of the state, and each instruction with legal operands.
-/

namespace Sys2Proof.Machine

variable (s : State)

/-! ### The advance -/

/-- An opcode with the sets-pc bit gets no advance (rule R86). -/
theorem advance_of_setsPc {op : Byte} (h : setsPc op = true) : s.advance op = s := by
  rw [State.advance, if_pos h]

/-- An opcode without the sets-pc bit advances by its length (rule R86). -/
theorem advance_of_plain {op : Byte} (h : setsPc op = false) :
    s.advance op = s.setPc (s.pc + BitVec.ofNat 8 (instructionLength op)) := by
  rw [State.advance, if_neg (by simp [h])]

/-! ### ALU results -/

theorem result_add (x y : Byte) : AluOp.result .add x y = x + y := by
  apply BitVec.eq_of_toInt_eq
  rw [AluOp.result, AluOp.exact, BitVec.toInt_ofInt, BitVec.toInt_add, BitVec.toInt_eq_toNat_bmod,
    BitVec.toInt_eq_toNat_bmod]
  simp only [Int.bmod_add_bmod, Int.add_bmod_bmod]

theorem result_sub (x y : Byte) : AluOp.result .sub x y = x - y := by
  apply BitVec.eq_of_toInt_eq
  rw [AluOp.result, AluOp.exact, BitVec.toInt_ofInt, BitVec.toInt_sub, BitVec.toInt_eq_toNat_bmod,
    BitVec.toInt_eq_toNat_bmod]
  simp only [Int.bmod_sub_bmod, Int.sub_bmod_bmod]

theorem result_mul (x y : Byte) : AluOp.result .mul x y = x * y := by
  apply BitVec.eq_of_toInt_eq
  rw [AluOp.result, AluOp.exact, BitVec.toInt_ofInt, BitVec.toInt_mul, BitVec.toInt_eq_toNat_bmod,
    BitVec.toInt_eq_toNat_bmod]
  simp only [Int.bmod_mul_bmod, Int.mul_bmod_bmod]

theorem result_and (x y : Byte) : AluOp.result .and x y = x &&& y := by
  simp [AluOp.result, AluOp.exact]

theorem result_or (x y : Byte) : AluOp.result .or x y = x ||| y := by
  simp [AluOp.result, AluOp.exact]

/-! ### What an action leaves alone -/

/-- The parts of the state that no action but HLT's and PRN's own writes, and the canonical form of memory. -/
structure Quiet (s t : State) : Prop where
  status : t.status = s.status
  fault : t.fault = s.fault
  output : t.output = s.output
  wf : s.mem.wf → t.mem.wf

theorem quiet_writeReg (r : RegId) (v : Byte) : Quiet s (s.writeReg r v) := ⟨rfl, rfl, rfl, id⟩
theorem quiet_memWrite (a v : Byte) : Quiet s (s.memWrite a v) := ⟨rfl, rfl, rfl, fun h => wf_memWrite h a v⟩
theorem quiet_setPc (p : Byte) : Quiet s (s.setPc p) := ⟨rfl, rfl, rfl, id⟩

theorem quiet_trans {s t u : State} (h : Quiet s t) (h' : Quiet t u) : Quiet s u :=
  ⟨h'.status.trans h.status, h'.fault.trans h.fault, h'.output.trans h.output, fun hw => h'.wf (h.wf hw)⟩

theorem quiet_ldiAction (imm : Byte) (ra : RegId) : Quiet s (ldiAction imm ra s) := quiet_writeReg s ra imm

theorem quiet_stAction (ra rb : RegId) : Quiet s (stAction ra rb s) := quiet_memWrite s _ _

theorem quiet_aluAction (op : AluOp) (ra rb : RegId) : Quiet s (aluAction op ra rb s) := quiet_writeReg s ra _

theorem quiet_pushAction (ra : RegId) : Quiet s (pushAction ra s) :=
  quiet_trans (quiet_writeReg s 7 _) (quiet_memWrite s.decSp _ _)

theorem quiet_popAction (ra : RegId) : Quiet s (popAction ra s) :=
  quiet_trans (quiet_writeReg s ra _) (quiet_writeReg _ 7 _)

theorem quiet_callAction (offset : Byte) (ra : RegId) : Quiet s (callAction offset ra s) :=
  quiet_trans (quiet_trans (quiet_writeReg s 7 _) (quiet_memWrite s.decSp _ _)) (quiet_setPc _ _)

theorem quiet_retAction : Quiet s (retAction s) :=
  quiet_trans (quiet_setPc s _) (quiet_writeReg _ 7 _)

theorem quiet_jmpAction (ra : RegId) : Quiet s (jmpAction ra s) := quiet_setPc s _

/-! ### What an action writes -/

theorem readReg_ldiAction (imm : Byte) (ra r : RegId) :
    (ldiAction imm ra s).readReg r = if ra = r then imm else s.readReg r := readReg_writeReg s ra r imm

theorem readReg_aluAction (op : AluOp) (ra rb r : RegId) :
    (aluAction op ra rb s).readReg r =
      if ra = r then op.result (s.readReg ra) (s.readReg rb) else s.readReg r := readReg_writeReg s ra r _

theorem memRead_stAction (ra rb : RegId) (c : Byte) :
    (stAction ra rb s).memRead c = if c = s.readReg ra then s.readReg rb else s.memRead c :=
  memRead_memWrite s _ _ c

theorem readReg_pushAction (ra r : RegId) :
    (pushAction ra s).readReg r = if 7 = r then s.sp - 1 else s.readReg r := readReg_writeReg s 7 r _

theorem memRead_pushAction (ra : RegId) (c : Byte) :
    (pushAction ra s).memRead c =
      if c = s.sp - 1 then (if 7 = ra then s.sp - 1 else s.readReg ra) else s.memRead c := by
  have hsp : s.decSp.sp = s.sp - 1 := readReg_writeReg_same s 7 _
  have hr : s.decSp.readReg ra = if 7 = ra then s.sp - 1 else s.readReg ra := readReg_writeReg s 7 ra _
  rw [pushAction, memRead_memWrite, hsp, hr]
  rfl

theorem readReg_popAction (ra r : RegId) :
    (popAction ra s).readReg r =
      if 7 = r then (if ra = 7 then s.memRead s.sp else s.sp) + 1
      else if ra = r then s.memRead s.sp else s.readReg r := by
  rw [popAction, incSp_eq_writeReg, readReg_writeReg, readReg_writeReg, readReg_writeReg]
  rfl

theorem memRead_callAction (offset : Byte) (ra : RegId) (c : Byte) :
    (callAction offset ra s).memRead c = if c = s.sp - 1 then s.pc + offset else s.memRead c := by
  have hsp : s.decSp.sp = s.sp - 1 := readReg_writeReg_same s 7 _
  rw [callAction, memRead_setPc, memRead_memWrite, hsp]
  rfl

theorem readReg_callAction (offset : Byte) (ra r : RegId) :
    (callAction offset ra s).readReg r = if 7 = r then s.sp - 1 else s.readReg r := readReg_writeReg s 7 r _

theorem callAction_pc (offset : Byte) (ra : RegId) :
    (callAction offset ra s).pc = if 7 = ra then s.sp - 1 else s.readReg ra := readReg_writeReg s 7 ra _

theorem readReg_retAction (r : RegId) :
    (retAction s).readReg r = if 7 = r then s.sp + 1 else s.readReg r := readReg_writeReg _ 7 r _

theorem retAction_pc : (retAction s).pc = s.memRead s.sp := rfl

/-! ### Each instruction with legal operands -/

theorem exec_hlt : exec .hlt s = .next ((s.setPc (s.pc + 1)).halt) :=
  congrArg (fun t : State => Host.Outcome.next t.halt) (advance_of_plain s (show setsPc Opcode.hlt = false by decide))

theorem exec_ret : exec .ret s = .next (retAction s) :=
  congrArg _ (advance_of_setsPc _ (show setsPc Opcode.ret = true by decide))

section
variable {a b : Byte} {ra rb : RegId}

theorem exec_ldi (ha : Names a ra) (imm : Byte) :
    exec (.ldi a imm) s = .next ((ldiAction imm ra s).setPc (s.pc + 3)) := by
  simp only [exec, execLdi, withReg_of_names ha]
  exact congrArg _ (advance_of_plain _ (show setsPc Opcode.ldi = false by decide))

theorem exec_prn (ha : Names a ra) :
    exec (.prn a) s = .next ((prnAction ra s).setPc (s.pc + 2)) := by
  simp only [exec, execPrn, withReg_of_names ha]
  exact congrArg _ (advance_of_plain _ (show setsPc Opcode.prn = false by decide))

theorem exec_st (ha : Names a ra) (hb : Names b rb) :
    exec (.st a b) s = .next ((stAction ra rb s).setPc (s.pc + 3)) := by
  simp only [exec, execSt, withTwoRegs_of_names ha hb]
  exact congrArg _ (advance_of_plain _ (show setsPc Opcode.st = false by decide))

theorem exec_add (ha : Names a ra) (hb : Names b rb) :
    exec (.add a b) s = .next ((aluAction .add ra rb s).setPc (s.pc + 3)) := by
  simp only [exec, execAdd, withTwoRegs_of_names ha hb]
  exact congrArg _ (advance_of_plain _ (show setsPc Opcode.add = false by decide))

theorem exec_sub (ha : Names a ra) (hb : Names b rb) :
    exec (.sub a b) s = .next ((aluAction .sub ra rb s).setPc (s.pc + 3)) := by
  simp only [exec, execSub, withTwoRegs_of_names ha hb]
  exact congrArg _ (advance_of_plain _ (show setsPc Opcode.sub = false by decide))

theorem exec_mul (ha : Names a ra) (hb : Names b rb) :
    exec (.mul a b) s = .next ((aluAction .mul ra rb s).setPc (s.pc + 3)) := by
  simp only [exec, execMul, withTwoRegs_of_names ha hb]
  exact congrArg _ (advance_of_plain _ (show setsPc Opcode.mul = false by decide))

theorem exec_and (ha : Names a ra) (hb : Names b rb) :
    exec (.and a b) s = .next ((aluAction .and ra rb s).setPc (s.pc + 3)) := by
  simp only [exec, execAnd, withTwoRegs_of_names ha hb]
  exact congrArg _ (advance_of_plain _ (show setsPc Opcode.and = false by decide))

theorem exec_or (ha : Names a ra) (hb : Names b rb) :
    exec (.or a b) s = .next ((aluAction .or ra rb s).setPc (s.pc + 3)) := by
  simp only [exec, execOr, withTwoRegs_of_names ha hb]
  exact congrArg _ (advance_of_plain _ (show setsPc Opcode.or = false by decide))

theorem exec_push (ha : Names a ra) :
    exec (.push a) s = .next ((pushAction ra s).setPc (s.pc + 2)) := by
  simp only [exec, execPush, withReg_of_names ha]
  exact congrArg _ (advance_of_plain _ (show setsPc Opcode.push = false by decide))

theorem exec_pop (ha : Names a ra) :
    exec (.pop a) s = .next ((popAction ra s).setPc (s.pc + 2)) := by
  simp only [exec, execPop, withReg_of_names ha]
  exact congrArg _ (advance_of_plain _ (show setsPc Opcode.pop = false by decide))

theorem exec_call (ha : Names a ra) :
    exec (.call a) s = .next (callAction 2 ra s) := by
  simp only [exec, execCall, withReg_of_names ha]
  exact congrArg _ (advance_of_setsPc _ (show setsPc Opcode.call = true by decide))

theorem exec_jmp (ha : Names a ra) :
    exec (.jmp a) s = .next (jmpAction ra s) := by
  simp only [exec, execJmp, withReg_of_names ha]
  exact congrArg _ (advance_of_setsPc _ (show setsPc Opcode.jmp = true by decide))

end

end Sys2Proof.Machine
end

