-- ==== Sys2Proof/Laws/Effect.lean ====
section
/-!
SUPPORT. Everything that an instruction can do, said once: it takes ILLEGAL_REGISTER for its first illegal operand, or
it has the effect of its rule.
-/

namespace Sys2Proof.Machine

/-- The effect of an instruction whose register operands name registers, its advance included. -/
inductive Effect : Instr → State → State → Prop where
  | hlt (s : State) : Effect .hlt s ((s.setPc (s.pc + 1)).halt)
  | ldi (s : State) {a : Byte} {ra : RegId} (imm : Byte) (ha : Names a ra) :
      Effect (.ldi a imm) s ((ldiAction imm ra s).setPc (s.pc + 3))
  | prn (s : State) {a : Byte} {ra : RegId} (ha : Names a ra) :
      Effect (.prn a) s ((prnAction ra s).setPc (s.pc + 2))
  | st (s : State) {a b : Byte} {ra rb : RegId} (ha : Names a ra) (hb : Names b rb) :
      Effect (.st a b) s ((stAction ra rb s).setPc (s.pc + 3))
  | add (s : State) {a b : Byte} {ra rb : RegId} (ha : Names a ra) (hb : Names b rb) :
      Effect (.add a b) s ((aluAction .add ra rb s).setPc (s.pc + 3))
  | sub (s : State) {a b : Byte} {ra rb : RegId} (ha : Names a ra) (hb : Names b rb) :
      Effect (.sub a b) s ((aluAction .sub ra rb s).setPc (s.pc + 3))
  | mul (s : State) {a b : Byte} {ra rb : RegId} (ha : Names a ra) (hb : Names b rb) :
      Effect (.mul a b) s ((aluAction .mul ra rb s).setPc (s.pc + 3))
  | and (s : State) {a b : Byte} {ra rb : RegId} (ha : Names a ra) (hb : Names b rb) :
      Effect (.and a b) s ((aluAction .and ra rb s).setPc (s.pc + 3))
  | or (s : State) {a b : Byte} {ra rb : RegId} (ha : Names a ra) (hb : Names b rb) :
      Effect (.or a b) s ((aluAction .or ra rb s).setPc (s.pc + 3))
  | push (s : State) {a : Byte} {ra : RegId} (ha : Names a ra) :
      Effect (.push a) s ((pushAction ra s).setPc (s.pc + 2))
  | pop (s : State) {a : Byte} {ra : RegId} (ha : Names a ra) :
      Effect (.pop a) s ((popAction ra s).setPc (s.pc + 2))
  | call (s : State) {a : Byte} {ra : RegId} (ha : Names a ra) : Effect (.call a) s (callAction 2 ra s)
  | ret (s : State) : Effect .ret s (retAction s)
  | jmp (s : State) {a : Byte} {ra : RegId} (ha : Names a ra) : Effect (.jmp a) s (jmpAction ra s)

/-- What `exec` answers: the fault for the first illegal operand, or the instruction's effect. -/
def Answer (i : Instr) (s : State) : Prop :=
  (∃ slot byte, firstIllegal i = some (FaultSlot.code slot, byte) ∧ i.wf = false ∧
    exec i s = .next (s.raiseIllegalRegister i.opcode byte slot)) ∨
  (firstIllegal i = none ∧ i.wf = true ∧ ∃ t, exec i s = .next t ∧ Effect i s t)

theorem answer_of_oneReg {i : Instr} {s : State} {a : Byte} {action : RegId → State → State}
    (he : exec i s = withReg i a s action) (hr : i.registerOperands = [a])
    (heff : ∀ ra, Names a ra → ∃ t, exec i s = .next t ∧ Effect i s t) : Answer i s := by
  rcases Nat.lt_or_ge a.toNat 8 with hlt | hge
  · exact .inr ⟨by simp [firstIllegal, hr, hlt], by simp [Instr.wf, hr, namesRegister, hlt], heff ⟨_, hlt⟩ rfl⟩
  · exact .inl ⟨.a, a, by simp [firstIllegal, hr, hge, FaultSlot.code], by simp [Instr.wf, hr, namesRegister, hge],
      he.trans (withReg_of_ge hge _ _ _)⟩

theorem answer_of_twoRegs {i : Instr} {s : State} {a b : Byte} {action : RegId → RegId → State → State}
    (he : exec i s = withTwoRegs i a b s action) (hr : i.registerOperands = [a, b])
    (heff : ∀ ra rb, Names a ra → Names b rb → ∃ t, exec i s = .next t ∧ Effect i s t) : Answer i s := by
  rcases Nat.lt_or_ge a.toNat 8 with ha | ha
  · rcases Nat.lt_or_ge b.toNat 8 with hb | hb
    · exact .inr ⟨by simp [firstIllegal, hr, Nat.not_le.mpr ha, Nat.not_le.mpr hb],
        by simp [Instr.wf, hr, namesRegister, ha, hb], heff ⟨_, ha⟩ ⟨_, hb⟩ rfl rfl⟩
    · exact .inl ⟨.b, b, by simp [firstIllegal, hr, Nat.not_le.mpr ha, hb, FaultSlot.code],
        by simp [Instr.wf, hr, namesRegister, ha, hb], he.trans (withTwoRegs_of_ge_right ha hb _ _ _)⟩
  · exact .inl ⟨.a, a, by simp [firstIllegal, hr, ha, FaultSlot.code],
      by simp [Instr.wf, hr, namesRegister, Nat.not_lt.mpr ha], he.trans (withTwoRegs_of_ge_left ha _ _ _ _)⟩

/-- Every instruction answers a next state, in one of these ways. -/
theorem exec_cases (i : Instr) (s : State) : Answer i s := by
  cases i with
  | hlt => exact .inr ⟨rfl, rfl, _, exec_hlt s, .hlt s⟩
  | ldi a imm => exact answer_of_oneReg rfl rfl fun _ ha => ⟨_, exec_ldi s ha imm, .ldi s imm ha⟩
  | prn a => exact answer_of_oneReg rfl rfl fun _ ha => ⟨_, exec_prn s ha, .prn s ha⟩
  | st a b => exact answer_of_twoRegs rfl rfl fun _ _ ha hb => ⟨_, exec_st s ha hb, .st s ha hb⟩
  | add a b => exact answer_of_twoRegs rfl rfl fun _ _ ha hb => ⟨_, exec_add s ha hb, .add s ha hb⟩
  | sub a b => exact answer_of_twoRegs rfl rfl fun _ _ ha hb => ⟨_, exec_sub s ha hb, .sub s ha hb⟩
  | mul a b => exact answer_of_twoRegs rfl rfl fun _ _ ha hb => ⟨_, exec_mul s ha hb, .mul s ha hb⟩
  | and a b => exact answer_of_twoRegs rfl rfl fun _ _ ha hb => ⟨_, exec_and s ha hb, .and s ha hb⟩
  | or a b => exact answer_of_twoRegs rfl rfl fun _ _ ha hb => ⟨_, exec_or s ha hb, .or s ha hb⟩
  | push a => exact answer_of_oneReg rfl rfl fun _ ha => ⟨_, exec_push s ha, .push s ha⟩
  | pop a => exact answer_of_oneReg rfl rfl fun _ ha => ⟨_, exec_pop s ha, .pop s ha⟩
  | call a => exact answer_of_oneReg rfl rfl fun _ ha => ⟨_, exec_call s ha, .call s ha⟩
  | ret => exact .inr ⟨rfl, rfl, _, exec_ret s, .ret s⟩
  | jmp a => exact answer_of_oneReg rfl rfl fun _ ha => ⟨_, exec_jmp s ha, .jmp s ha⟩

end Sys2Proof.Machine
end

