-- ==== Sys2Proof/Laws/PerInstr.lean ====
section
/-!
SUPPORT. What holds of every instruction, one lemma for each constructor: its bytes decode to it (RoundTrip), and its
opcode's bits tell its shape (OpcodeShape).
-/

/-- The bytes of the instruction, with any bytes after them, decode to it. -/
def Sys2Proof.Laws.RoundTrip.Statement (i : Sys2Proof.Instr) : Prop :=
  ∀ x y : Sys2Proof.Byte, Sys2Proof.decode (Sys2Proof.Fetched.ofBytes (Sys2Proof.encode i ++ [x, y])) = .ok i

/-- The opcode's operand count is the format's, and the instruction has that many operand bytes (rules R65, R69). -/
def Sys2Proof.Laws.OpcodeShape.Statement (i : Sys2Proof.Instr) : Prop :=
  Sys2Proof.operandCount i.opcode = i.format.operandBytes ∧ i.operands.length = i.format.operandBytes

open Sys2Proof

theorem Sys2Proof.Laws.RoundTrip.hlt : Laws.RoundTrip.Statement .hlt := fun _ _ => rfl
theorem Sys2Proof.Laws.RoundTrip.ldi (a imm : Byte) : Laws.RoundTrip.Statement (.ldi a imm) := fun _ _ => rfl
theorem Sys2Proof.Laws.RoundTrip.prn (a : Byte) : Laws.RoundTrip.Statement (.prn a) := fun _ _ => rfl
theorem Sys2Proof.Laws.RoundTrip.st (a b : Byte) : Laws.RoundTrip.Statement (.st a b) := fun _ _ => rfl
theorem Sys2Proof.Laws.RoundTrip.add (a b : Byte) : Laws.RoundTrip.Statement (.add a b) := fun _ _ => rfl
theorem Sys2Proof.Laws.RoundTrip.sub (a b : Byte) : Laws.RoundTrip.Statement (.sub a b) := fun _ _ => rfl
theorem Sys2Proof.Laws.RoundTrip.mul (a b : Byte) : Laws.RoundTrip.Statement (.mul a b) := fun _ _ => rfl
theorem Sys2Proof.Laws.RoundTrip.and (a b : Byte) : Laws.RoundTrip.Statement (.and a b) := fun _ _ => rfl
theorem Sys2Proof.Laws.RoundTrip.or (a b : Byte) : Laws.RoundTrip.Statement (.or a b) := fun _ _ => rfl
theorem Sys2Proof.Laws.RoundTrip.push (a : Byte) : Laws.RoundTrip.Statement (.push a) := fun _ _ => rfl
theorem Sys2Proof.Laws.RoundTrip.pop (a : Byte) : Laws.RoundTrip.Statement (.pop a) := fun _ _ => rfl
theorem Sys2Proof.Laws.RoundTrip.call (a : Byte) : Laws.RoundTrip.Statement (.call a) := fun _ _ => rfl
theorem Sys2Proof.Laws.RoundTrip.ret : Laws.RoundTrip.Statement .ret := fun _ _ => rfl
theorem Sys2Proof.Laws.RoundTrip.jmp (a : Byte) : Laws.RoundTrip.Statement (.jmp a) := fun _ _ => rfl

theorem Sys2Proof.Laws.OpcodeShape.count_hlt : operandCount Opcode.hlt = 0 := by decide
theorem Sys2Proof.Laws.OpcodeShape.count_ldi : operandCount Opcode.ldi = 2 := by decide
theorem Sys2Proof.Laws.OpcodeShape.count_prn : operandCount Opcode.prn = 1 := by decide
theorem Sys2Proof.Laws.OpcodeShape.count_st : operandCount Opcode.st = 2 := by decide
theorem Sys2Proof.Laws.OpcodeShape.count_add : operandCount Opcode.add = 2 := by decide
theorem Sys2Proof.Laws.OpcodeShape.count_sub : operandCount Opcode.sub = 2 := by decide
theorem Sys2Proof.Laws.OpcodeShape.count_mul : operandCount Opcode.mul = 2 := by decide
theorem Sys2Proof.Laws.OpcodeShape.count_and : operandCount Opcode.and = 2 := by decide
theorem Sys2Proof.Laws.OpcodeShape.count_or : operandCount Opcode.or = 2 := by decide
theorem Sys2Proof.Laws.OpcodeShape.count_push : operandCount Opcode.push = 1 := by decide
theorem Sys2Proof.Laws.OpcodeShape.count_pop : operandCount Opcode.pop = 1 := by decide
theorem Sys2Proof.Laws.OpcodeShape.count_call : operandCount Opcode.call = 1 := by decide
theorem Sys2Proof.Laws.OpcodeShape.count_ret : operandCount Opcode.ret = 0 := by decide
theorem Sys2Proof.Laws.OpcodeShape.count_jmp : operandCount Opcode.jmp = 1 := by decide

theorem Sys2Proof.Laws.OpcodeShape.hlt : Laws.OpcodeShape.Statement .hlt :=
  ⟨Laws.OpcodeShape.count_hlt, rfl⟩
theorem Sys2Proof.Laws.OpcodeShape.ldi (a imm : Byte) : Laws.OpcodeShape.Statement (.ldi a imm) :=
  ⟨Laws.OpcodeShape.count_ldi, rfl⟩
theorem Sys2Proof.Laws.OpcodeShape.prn (a : Byte) : Laws.OpcodeShape.Statement (.prn a) :=
  ⟨Laws.OpcodeShape.count_prn, rfl⟩
theorem Sys2Proof.Laws.OpcodeShape.st (a b : Byte) : Laws.OpcodeShape.Statement (.st a b) :=
  ⟨Laws.OpcodeShape.count_st, rfl⟩
theorem Sys2Proof.Laws.OpcodeShape.add (a b : Byte) : Laws.OpcodeShape.Statement (.add a b) :=
  ⟨Laws.OpcodeShape.count_add, rfl⟩
theorem Sys2Proof.Laws.OpcodeShape.sub (a b : Byte) : Laws.OpcodeShape.Statement (.sub a b) :=
  ⟨Laws.OpcodeShape.count_sub, rfl⟩
theorem Sys2Proof.Laws.OpcodeShape.mul (a b : Byte) : Laws.OpcodeShape.Statement (.mul a b) :=
  ⟨Laws.OpcodeShape.count_mul, rfl⟩
theorem Sys2Proof.Laws.OpcodeShape.and (a b : Byte) : Laws.OpcodeShape.Statement (.and a b) :=
  ⟨Laws.OpcodeShape.count_and, rfl⟩
theorem Sys2Proof.Laws.OpcodeShape.or (a b : Byte) : Laws.OpcodeShape.Statement (.or a b) :=
  ⟨Laws.OpcodeShape.count_or, rfl⟩
theorem Sys2Proof.Laws.OpcodeShape.push (a : Byte) : Laws.OpcodeShape.Statement (.push a) :=
  ⟨Laws.OpcodeShape.count_push, rfl⟩
theorem Sys2Proof.Laws.OpcodeShape.pop (a : Byte) : Laws.OpcodeShape.Statement (.pop a) :=
  ⟨Laws.OpcodeShape.count_pop, rfl⟩
theorem Sys2Proof.Laws.OpcodeShape.call (a : Byte) : Laws.OpcodeShape.Statement (.call a) :=
  ⟨Laws.OpcodeShape.count_call, rfl⟩
theorem Sys2Proof.Laws.OpcodeShape.ret : Laws.OpcodeShape.Statement .ret :=
  ⟨Laws.OpcodeShape.count_ret, rfl⟩
theorem Sys2Proof.Laws.OpcodeShape.jmp (a : Byte) : Laws.OpcodeShape.Statement (.jmp a) :=
  ⟨Laws.OpcodeShape.count_jmp, rfl⟩
end

