-- ==== Sys2Proof/Laws/Step.lean ====
section
/-!
SUPPORT. Everything that a step can do, said once.
-/

namespace Sys2Proof.Machine

theorem stopReason_eq_none {u : RunState} : stopReason u = none ↔ u = .running := by
  cases u <;> simp [stopReason]

/-- A step that answers a next state is a Running core's, and is the fault UNKNOWN_OPCODE or the execution of the decoded
instruction. -/
theorem step_cases {s t : State} (h : step s = .next t) :
    s.status = .running ∧
    ((decode (fetch s) = .error (.unknownOpcode (s.memRead s.pc)) ∧ t = s.raiseUnknownOpcode (s.memRead s.pc)) ∨
      ∃ i, decode (fetch s) = .ok i ∧ exec i s = .next t) := by
  unfold step at h
  split at h
  · cases h
  · rename_i hrun
    refine ⟨stopReason_eq_none.mp hrun, ?_⟩
    split at h
    · rename_i op hd
      obtain rfl : op = s.memRead s.pc := by
        have := decode_error hd
        simpa [fetch] using this
      cases h
      exact .inl ⟨hd, rfl⟩
    · rename_i i hd
      exact .inr ⟨i, hd, h⟩

/-- One more step of a run is the first step and then the rest. -/
theorem run_succ (M : Host.Core) (n : Nat) (s : M.State) :
    M.run (n + 1) s = match M.step s with
      | .next t => M.run n t
      | .fault r => .fault r
      | .refused r => .refused r := rfl

end Sys2Proof.Machine
end

