-- ==== Sys2Proof/Tests/Slice0.lean ====
section
/-!
SUPPORT. The model's own tests. The expected results are those of spec/95_test_vectors.md (the vector's number is named)
or written out from the encodings of spec/30_encoding.md; the last part shows, for each statement with hypotheses, a
state and operands that meet them.
-/

namespace Sys2Proof.Machine

/-! ### Helpers -/

/-- A Running core with the given `pc`, bytes at `pc`, registers and cells, and everything else as after reset. -/
def testState (pc : Byte) (bytes : Fetched) (regs : List (RegId × Byte)) (cells : List (Byte × Byte)) : State :=
  let withPc := (State.reset.setPc pc).setStatus .running
  let withRegs := regs.foldl (fun s r => s.writeReg r.1 r.2) withPc
  (cells.foldl (fun s c => s.memWrite c.1 c.2) withRegs).placeFetched bytes

/-- What a step shows of its next state. -/
def afterStep {α : Type} (s : State) (view : State → α) : Option α :=
  match step s with
  | .next t => some (view t)
  | .fault _ => none
  | .refused _ => none

/-- The fault record as a tuple, in the order of spec/95_test_vectors.md. -/
def recordOf (s : State) : RunState × Byte × Byte × Byte × Byte × Byte :=
  (s.status, s.fault.cause, s.fault.pc, s.fault.opcode, s.fault.operand, s.fault.slot)

/-! ### The check of WellFormed refuses each ill-formed operand, and only those -/

theorem test_wf_refuses_operand_a :
    ([.ldi 8 0, .prn 8, .st 8 0, .add 8 0, .sub 8 0, .mul 8 0, .and 8 0, .or 8 0, .push 8, .pop 8, .call 8,
      .jmp 255] : List Instr).all (fun i => !i.wf) = true := by decide

theorem test_wf_refuses_operand_b :
    ([.st 0 8, .add 0 8, .sub 0 8, .mul 7 255, .and 0 8, .or 0 8] : List Instr).all (fun i => !i.wf) = true := by
  decide

theorem test_wf_accepts_legal_operands :
    ([.hlt, .ldi 7 255, .prn 7, .st 7 7, .add 7 7, .sub 0 7, .mul 7 0, .and 7 7, .or 7 7, .push 7, .pop 7, .call 7,
      .ret, .jmp 7] : List Instr).all Instr.wf = true := by decide

/-! ### Words written out from the encodings -/

theorem test_decode_hlt : decode ⟨0b00000001, 0xFF, 0xFF⟩ = .ok .hlt := by decide
theorem test_decode_ldi : decode ⟨0b10000010, 0b00000011, 0b11111111⟩ = .ok (.ldi 3 255) := by decide
theorem test_decode_prn : decode ⟨0b01000111, 0b00000110, 0b01000111⟩ = .ok (.prn 6) := by decide
theorem test_decode_st : decode ⟨0b10000100, 0b00000010, 0b00000011⟩ = .ok (.st 2 3) := by decide
theorem test_decode_add : decode ⟨0b10100000, 0b00000000, 0b00000001⟩ = .ok (.add 0 1) := by decide
theorem test_decode_sub : decode ⟨0b10100001, 0b00000101, 0b00000100⟩ = .ok (.sub 5 4) := by decide
theorem test_decode_mul : decode ⟨0b10100010, 0b00000001, 0b00000110⟩ = .ok (.mul 1 6) := by decide
theorem test_decode_and : decode ⟨0b10101000, 0b00000100, 0b00000011⟩ = .ok (.and 4 3) := by decide
theorem test_decode_or : decode ⟨0b10101010, 0b00000111, 0b00000010⟩ = .ok (.or 7 2) := by decide
theorem test_decode_push : decode ⟨0b01000101, 0b00000101, 0b00000001⟩ = .ok (.push 5) := by decide
theorem test_decode_pop : decode ⟨0b01000110, 0b00000011, 0b00000001⟩ = .ok (.pop 3) := by decide
theorem test_decode_call : decode ⟨0b01010000, 0b00000001, 0b01000111⟩ = .ok (.call 1) := by decide
theorem test_decode_ret : decode ⟨0b00010001, 0b11111111, 0b11111111⟩ = .ok .ret := by decide
theorem test_decode_jmp : decode ⟨0b01010100, 0b00000010, 0b00000001⟩ = .ok (.jmp 2) := by decide

/-- T80 to T87: bytes that are no opcode. -/
theorem test_decode_rejects :
    ([0x00, 0x10, 0x02, 0x12, 0x48, 0xC0, 0xFF, 0x83] : List Byte).all
      (fun op => decide (decode ⟨op, 9, 9⟩ = .error (.unknownOpcode op))) = true := by decide

/-- The bytes of E1's first instruction as a table word: the opcode is the low byte. -/
theorem test_decode_table_word : decodeTableWord 24 0x080082 = some (.ldi 0 8) := by decide

/-- An operand byte above `nbits` is 0. -/
theorem test_decode_table_word_short : decodeTableWord 8 0x080082 = some (.ldi 0 0) := by decide

/-- The examples of rule R72. -/
theorem test_assembly : [(Instr.ldi 0 8).assembly, (Instr.add 0 1).assembly, Instr.hlt.assembly] =
    ["LDI R0,8", "ADD R0,R1", "HLT"] := by decide

/-! ### One step of each instruction -/

/-- T16. -/
theorem test_hlt_wraps : afterStep (testState 0xFF ⟨0x01, 0xFF, 0xFF⟩ [] []) (fun t => (t.pc, t.status)) =
    some (0x00, .halted) := by decide

/-- T20. -/
theorem test_prn_across_the_wrap : afterStep (testState 0xFF ⟨0x47, 0, 0⟩ [(0, 3)] []) (fun t => (t.pc, t.output)) =
    some (0x01, [3]) := by decide

/-- T21. -/
theorem test_prn_illegal : afterStep (testState 0 ⟨0x47, 0xC8, 0⟩ [] []) recordOf =
    some (.faulted, 2, 0x00, 0x47, 200, 1) := by decide

/-- T24. -/
theorem test_ldi_across_the_wrap : afterStep (testState 0xFE ⟨0x82, 0, 7⟩ [] []) (fun t => (t.pc, t.readReg 0)) =
    some (0x01, 7) := by decide

/-- T26. -/
theorem test_ldi_illegal : afterStep (testState 0 ⟨0x82, 8, 1⟩ [] []) recordOf =
    some (.faulted, 2, 0x00, 0x82, 8, 1) := by decide

/-- T27d: the store overwrites its own second operand byte. -/
theorem test_st_over_itself : afterStep (testState 0x40 ⟨0x84, 0, 1⟩ [(0, 0x42), (1, 5)] [])
    (fun t => (t.pc, t.memRead 0x42)) = some (0x43, 5) := by decide

/-- T27f: operand a is checked first. -/
theorem test_st_illegal_both : afterStep (testState 0 ⟨0x84, 9, 0x0A⟩ [] []) recordOf =
    some (.faulted, 2, 0x00, 0x84, 9, 1) := by decide

/-- T31: both operands are one register. -/
theorem test_add_doubles : afterStep (testState 0 ⟨0xA0, 0, 0⟩ [(0, 0x90)] []) (fun t => t.readReg 0) =
    some 0x20 := by decide

/-- T34. -/
theorem test_add_illegal_b : afterStep (testState 0 ⟨0xA0, 0, 8⟩ [] []) recordOf =
    some (.faulted, 2, 0x00, 0xA0, 8, 2) := by decide

/-- T35. -/
theorem test_sub_wraps : afterStep (testState 0 ⟨0xA1, 0, 1⟩ [(0, 5), (1, 10)] [])
    (fun t => (t.readReg 0, t.readReg 1, t.pc)) = some (251, 10, 3) := by decide

/-- T41. -/
theorem test_mul_low_byte : afterStep (testState 0 ⟨0xA2, 0, 1⟩ [(0, 255), (1, 255)] []) (fun t => t.readReg 0) =
    some 1 := by decide

/-- T44. -/
theorem test_and : afterStep (testState 0 ⟨0xA8, 0, 1⟩ [(0, 0xF0), (1, 0x3C)] []) (fun t => t.readReg 0) =
    some 0x30 := by decide

/-- T48. -/
theorem test_or : afterStep (testState 0 ⟨0xAA, 0, 1⟩ [(0, 0x55), (1, 0xAA)] []) (fun t => t.readReg 0) =
    some 0xFF := by decide

/-- T51. -/
theorem test_push_wraps : afterStep (testState 0x10 ⟨0x45, 0, 0⟩ [(0, 9), (7, 0)] [])
    (fun t => (t.pc, t.sp, t.memRead 0xFF)) = some (0x12, 0xFF, 9) := by decide

/-- T52. -/
theorem test_push_sp : afterStep (testState 0 ⟨0x45, 7, 0⟩ [] []) (fun t => (t.sp, t.memRead 0xF3)) =
    some (0xF3, 0xF3) := by decide

/-- T55. -/
theorem test_pop_wraps : afterStep (testState 0x10 ⟨0x46, 0, 0⟩ [(7, 0xFF)] [(0xFF, 0x77)])
    (fun t => (t.pc, t.readReg 0, t.sp, t.memRead 0xFF)) = some (0x12, 0x77, 0, 0x77) := by decide

/-- T56. -/
theorem test_pop_sp : afterStep (testState 0 ⟨0x46, 7, 0⟩ [(7, 0xF3)] [(0xF3, 0x20)]) (fun t => t.sp) =
    some 0x21 := by decide

/-- T64. -/
theorem test_call : afterStep (testState 6 ⟨0x50, 1, 0⟩ [(1, 0x0B)] []) (fun t => (t.pc, t.sp, t.memRead 0xF3)) =
    some (0x0B, 0xF3, 0x08) := by decide

/-- T68. -/
theorem test_call_sp : afterStep (testState 0x20 ⟨0x50, 7, 0⟩ [] []) (fun t => (t.pc, t.sp, t.memRead 0xF3)) =
    some (0xF3, 0xF3, 0x22) := by decide

/-- T65: the action with `CALL_RETURN_OFFSET` 1. -/
theorem test_call_other_offset : (callAction 1 1 (testState 6 ⟨0x50, 1, 0⟩ [(1, 0x0B)] [])).memRead 0xF3 = 0x07 := by
  decide

/-- T71. -/
theorem test_ret_wraps : afterStep (testState 0x20 ⟨0x11, 0, 0⟩ [(7, 0xFF)] [(0xFF, 0x33)]) (fun t => (t.pc, t.sp)) =
    some (0x33, 0) := by decide

/-- T73. -/
theorem test_jmp : afterStep (testState 0x0C ⟨0x54, 2, 0⟩ [(2, 0x0F)] []) (fun t => t.pc) = some 0x0F := by decide

/-- T87: the opcode is checked before the operands. -/
theorem test_unknown_opcode : afterStep (testState 0 ⟨0x83, 9, 9⟩ [] []) recordOf =
    some (.faulted, 1, 0x00, 0x83, 0, 0) := by decide

/-- The host's question: a table word runs as the first instruction after reset. -/
theorem test_table_word_runs_after_reset :
    afterStep (State.reset.withFetchWord 24 0x050282) (fun t => (t.readReg 2, t.pc)) = some (5, 3) := by decide

/-! ### Every hypothesis is met somewhere -/

/-- A Running core about to execute LDI R7, 255, over the wrap at the top of memory. -/
def ldiState : State := testState 0xFE ⟨0x82, 7, 0xFF⟩ [] []

/-- A Running core about to execute the illegal opcode 0xC0. -/
def badState : State := testState 0 ⟨0xC0, 9, 9⟩ [] []

/-- A Running core about to execute ST R0, R8. -/
def trapState : State := testState 0 ⟨0x84, 0, 8⟩ [] []

/-- A Running core about to execute ST R2, R3, which overwrites its own first operand byte. -/
def storeState : State := testState 0 ⟨0x84, 2, 3⟩ [(2, 1), (3, 5)] []

/-- A Running core about to jump to the JMP it executes. -/
def spinState : State := testState 0x30 ⟨0x54, 0, 0⟩ [(0, 0x30)] []

theorem test_witness_DecodeAndEncodeAgree : decode ⟨0x01, 0xFF, 0xFF⟩ = .ok .hlt := by decide

theorem test_witness_EncodingsArePrefixFree : encode (.push 5) ++ [1] = encode (.push 5) ++ [1] ∧ encode .ret = [0x11] := by
  decide

theorem test_witness_OpcodeFieldsAreTheBitsOfTheByte :
    operandCount 0xC0 = 3 ∧ operandCount 0xFF = 3 ∧ setsPc 0x10 = true ∧ setsPc 0xFF = true := by decide

theorem test_witness_MemoryWriteSetsOneCell : (0xFF : Byte) ≠ 0x00 := by decide

theorem test_witness_CanonicalMemoriesThatReadAlikeAreEqual :
    ldiState.mem.wf ∧ (ldiState.memWrite 0 0xFF).mem.wf ∧ ∀ c, (ldiState.memWrite 0 0xFF).memRead c = ldiState.memRead c := by
  decide

theorem test_witness_CanonicalWritesAreExtensional : ldiState.mem.wf ∧ (0xFF : Byte) ≠ 0x00 := by decide

theorem test_witness_StepRunsTheDecodedInstruction : ldiState.status = .running ∧
    decode ⟨ldiState.memRead ldiState.pc, ldiState.memRead (ldiState.pc + 1), ldiState.memRead (ldiState.pc + 2)⟩ =
      .ok (.ldi 7 255) := by decide

theorem test_witness_StepRunsTheEncodedInstruction : ldiState.status = .running ∧
    ∀ k (h : k < (encode (.ldi 7 255)).length),
      ldiState.memRead (ldiState.pc + BitVec.ofNat 8 k) = (encode (.ldi 7 255))[k] := by decide

theorem test_witness_UnknownOpcodeTakesItsFault : badState.status = .running ∧ badState.memRead badState.pc ∉
    ([0x01, 0x82, 0x47, 0x84, 0xA0, 0xA1, 0xA2, 0xA8, 0xAA, 0x45, 0x46, 0x50, 0x11, 0x54] : List Byte) := by decide

theorem test_witness_FirstIllegalOperandTakesItsFault :
    firstIllegal (.st 8 9) = some (1, 8) ∧ firstIllegal (.st 7 8) = some (2, 8) ∧
    firstIllegal (.jmp 255) = some (1, 255) := by decide

theorem test_witness_LegalOperandsCompleteWithoutFault : (Instr.or 7 7).wf = true ∧ Instr.hlt.wf = true := by decide

theorem test_witness_PendingFaultDecidesTheStep :
    badState.status = .running ∧ pendingFault badState = some ⟨1, 0, 0xC0, 0, 0⟩ ∧
    trapState.status = .running ∧ pendingFault trapState = some ⟨2, 0, 0x84, 8, 2⟩ ∧
    ldiState.status = .running ∧ pendingFault ldiState = none := by decide

theorem test_witness_StepsOnlyWhileRunning :
    (afterStep ldiState (fun t => t.sp) = some 255) ∧ State.reset.status = .idle ∧
    ldiState.halt.status = .halted ∧ (badState.raiseUnknownOpcode 0xC0).status = .faulted := by decide

theorem test_witness_OnlyHltEndsARunCleanly :
    afterStep (testState 0 ⟨0x01, 0, 0⟩ [] []) (fun t => t.status) = some .halted ∧
    afterStep trapState (fun t => t.status) = some .faulted ∧
    afterStep ldiState (fun t => t.status) = some .running := by decide

theorem test_witness_PlainInstructionsAdvanceByTheirLength :
    (Instr.ldi 7 255).wf = true ∧ setsPc (Instr.ldi 7 255).opcode = false := by decide

theorem test_witness_OnlyStoresChangeMemory : ∃ t, exec (.st 2 3) storeState = .next t ∧
    (0xFF : Byte) ∉ storeCells (.st 2 3) storeState := ⟨_, rfl, by decide⟩

theorem test_witness_OnlyTabledRegistersChange : ∃ t, exec (.pop 7) storeState = .next t ∧
    (0 : RegId) ∉ writtenRegs (.pop 7) := ⟨_, rfl, by decide⟩

theorem test_witness_OnlyPrnEmits : (∃ t, exec (.prn 7) ldiState = .next t) ∧ Names 7 7 ∧
    (∃ t, exec .ret ldiState = .next t) ∧ ∀ a, Instr.ret ≠ .prn a := ⟨⟨_, rfl⟩, rfl, ⟨_, rfl⟩, fun _ => by simp⟩

theorem test_witness_StoresAreSeenByTheNextFetchOnly : storeState.status = .running ∧
    fetch storeState = ⟨0x84, 2, 3⟩ ∧ Names 2 2 ∧ Names 3 3 := ⟨rfl, by decide, rfl, rfl⟩

theorem test_witness_OnlyPopAndRetReadMemory : ∃ t t', exec (.push 0) storeState = .next t ∧
    exec (.push 0) { storeState with mem := [] } = .next t' ∧ (∀ a, Instr.push 0 ≠ .pop a) ∧ Instr.push 0 ≠ .ret :=
  ⟨_, _, rfl, rfl, fun _ => by simp, by simp⟩

theorem test_witness_EveryStepKeepsTheInvariant :
    ldiState.Inv ∧ ∃ t, step ldiState = .next t := ⟨by unfold State.Inv; decide, _, rfl⟩

theorem test_witness_EveryHostActionKeepsTheInvariant : (badState.raiseUnknownOpcode 0xC0).Inv := by
  unfold State.Inv
  decide

theorem test_witness_ReachableStatesMeetTheInvariant :
    Reachable (hostAct .start (hostAct (.load [0x82, 0, 8]) State.reset).2).2 :=
  .host _ (.host _ .reset)

theorem test_witness_ReservedFaultCodeIsNeverSeen :
    Reachable State.reset ∧ (hostAct .status State.reset).1 = .runStatus 0 ⟨0, 0, 0, 0, 0⟩ := ⟨.reset, by decide⟩

theorem test_witness_NoInstructionReadsOutputOrFaultRecord :
    SameVisible trapState (trapState.out 5) ∧ trapState.status = .running ∧ (trapState.out 5).status = .running ∧
    ∃ t, step trapState = .next t ∧ t.status = .faulted := ⟨⟨rfl, rfl, rfl⟩, rfl, rfl, _, rfl, rfl⟩

/-- The hypotheses of the one-register rules (PRN, PUSH, POP, CALL, JMP) and of LDI's: the last register and the first byte
that names none. -/
theorem test_witness_OneRegisterRules : Names 7 7 ∧ Names 0 0 ∧ 8 ≤ (8 : Byte).toNat ∧ 8 ≤ (255 : Byte).toNat :=
  ⟨rfl, rfl, by decide, by decide⟩

/-- The hypotheses of the two-register rules (ST and the ALU). -/
theorem test_witness_TwoRegisterRules :
    Names 7 7 ∧ Names 0 0 ∧ 8 ≤ (8 : Byte).toNat ∧ (7 : Byte).toNat < 8 ∧ 8 ≤ (255 : Byte).toNat :=
  ⟨rfl, rfl, by decide, by decide, by decide⟩

theorem test_witness_LdiThenPrnEmitsTheImmediate : namesRegister 7 = true := by decide

theorem test_witness_AluWritesOnlyItsFirstOperand : (1 : RegId) ≠ 0 := by decide

theorem test_witness_PushThenPopRestores : Names 7 7 ∧ Names 0 0 := ⟨rfl, rfl⟩

theorem test_witness_PushThenPopElsewhereCopies : Names 2 2 ∧ Names 3 3 ∧ Names 7 7 ∧ (2 : RegId) ≠ 7 ∧ (3 : RegId) ≠ 7 :=
  ⟨rfl, rfl, rfl, by decide, by decide⟩

theorem test_witness_PushesLowerTheStackPointer :
    ([0, 7, 3] : List Byte).all namesRegister = true ∧ State.reset.sp = State.reset.sp := by decide

theorem test_witness_RetAfterCallResumesBehindIt : namesRegister 1 = true ∧
    ∃ t, exec (.call 1) storeState = .next t ∧ t.sp = t.sp ∧ t.memRead t.sp = t.memRead t.sp :=
  ⟨by decide, _, rfl, rfl, rfl⟩

theorem test_witness_JumpToItselfNeverEnds : spinState.status = .running ∧ spinState.memRead spinState.pc = 0x54 ∧
    Names (spinState.memRead (spinState.pc + 1)) 0 ∧ spinState.readReg 0 = spinState.pc := by
  unfold Names
  decide

theorem test_witness_LoadCopiesTheImageOrIsRefused :
    State.reset.status = .idle ∧ (List.replicate 256 (1 : Byte)).length ≤ 256 ∧
    256 < (List.replicate 257 (1 : Byte)).length ∧ ldiState.status ≠ .idle := by
  simp only [List.length_replicate]
  decide

theorem test_witness_StartOnlyLeavesIdle : State.reset.status = .idle ∧ ldiState.status ≠ .idle := by decide

theorem test_witness_OnlyResetChangesAStartedCore : ldiState.status ≠ .idle ∧ HostAction.load [1] ≠ .reset := by decide

theorem test_witness_BootRunsTheImageFromAddressZero :
    ([0x82, 0, 8] : List Byte).length ≤ 256 ∧ decode (Fetched.ofBytes [0x82, 0, 8]) = .ok (.ldi 0 8) := by decide

theorem test_witness_PlacedWordIsRunByTheNextStep : decodeTableWord 16 0x0754 = some (.jmp 7) := by decide

end Sys2Proof.Machine
end

section
/-!
PROOFS. The registers as plain storage, and the stack pointer as register 7 (rules R22 and R23).
-/

namespace Sys2Proof.Machine

variable (s : State)

/-- `readReg_writeReg` with the condition read from the register that is read. -/
theorem readReg_writeReg_comm (r r' : RegId) (v : Byte) :
    (s.writeReg r v).readReg r' = if r' = r then v else s.readReg r' := by
  simp only [readReg_writeReg, eq_comm (a := r)]

/-- A write through `x[r]` is seen through `sp` exactly when `r` is register 7 (rule R23). -/
theorem sp_writeReg (r : RegId) (v : Byte) : (s.writeReg r v).sp = if r = 7 then v else s.sp :=
  readReg_writeReg s r 7 v

/-- A write through `sp` is seen through `x[r]` exactly when `r` is register 7 (rule R23). -/
theorem readReg_setSp (r : RegId) (v : Byte) :
    (s.setSp v).readReg r = if r = 7 then v else s.readReg r :=
  readReg_writeReg_comm s 7 r v

end Sys2Proof.Machine

open Sys2Proof.Machine in
/-- Settles O10, from the read-after-write law of the register file, with `sp` as its register 7. -/
theorem registersArePlainAndSpIsR7 : Obligations.RegistersArePlainAndSpIsR7 := fun s r r' v =>
  ⟨readReg_writeReg_comm s r r' v, sp_eq_readReg s, sp_writeReg s r v, readReg_setSp s r v⟩
end

section
/-!
PROOFS. What a memory write sets and what it leaves unchanged (rule R42).
-/

open Sys2Proof.Machine in
/-- Settles O7: the two read-after-write laws of the memory give the written cell and the other cells, and the field laws
of `State.memWrite` give the rest of the state. -/
theorem memoryWriteSetsOneCell : Obligations.MemoryWriteSetsOneCell := fun s addr v =>
  ⟨memRead_memWrite_same s addr v, fun _ hc => memRead_memWrite_other s hc v,
    memWrite_regs s addr v, memWrite_pc s addr v, memWrite_status s addr v, memWrite_fault s addr v,
    memWrite_output s addr v⟩
end

section
/-!
PROOFS. What the fields of an opcode byte say: the operand count of bits 7:6 and the sets-pc flag of bit 4, for every
instruction (rule R69) and for every byte (rules R62 and R63).
-/

namespace Sys2Proof

/-! ### The fields of any byte -/

theorem operandCount_eq_div (op : Byte) : operandCount op = op.toNat / 64 := by
  have hlt : op.toNat / 64 < 4 := by omega
  rw [operandCount, BitVec.extractLsb'_toNat, Nat.shiftRight_eq_div_pow]
  exact Nat.mod_eq_of_lt hlt

theorem setsPc_iff (op : Byte) : setsPc op = true ↔ op.toNat / 16 % 2 = 1 := by
  rw [setsPc, BitVec.getLsbD, Nat.testBit_eq_decide_div_mod_eq, decide_eq_true_iff]

/-! ### The opcode of an instruction -/

/-- The per-instruction laws of the opcode's shape, joined over the constructors. -/
theorem opcodeShape : ∀ i : Instr, Laws.OpcodeShape.Statement i
  | .hlt => Laws.OpcodeShape.hlt
  | .ldi a imm => Laws.OpcodeShape.ldi a imm
  | .prn a => Laws.OpcodeShape.prn a
  | .st a b => Laws.OpcodeShape.st a b
  | .add a b => Laws.OpcodeShape.add a b
  | .sub a b => Laws.OpcodeShape.sub a b
  | .mul a b => Laws.OpcodeShape.mul a b
  | .and a b => Laws.OpcodeShape.and a b
  | .or a b => Laws.OpcodeShape.or a b
  | .push a => Laws.OpcodeShape.push a
  | .pop a => Laws.OpcodeShape.pop a
  | .call a => Laws.OpcodeShape.call a
  | .ret => Laws.OpcodeShape.ret
  | .jmp a => Laws.OpcodeShape.jmp a

theorem operandCount_opcode (i : Instr) : operandCount i.opcode = i.format.operandBytes := (opcodeShape i).1

theorem operands_length (i : Instr) : i.operands.length = i.format.operandBytes := (opcodeShape i).2

/-- The sets-pc bit marks the three control transfers (rule R69). -/
theorem setsPc_opcode_iff (i : Instr) :
    setsPc i.opcode = true ↔ (∃ a, i = .call a) ∨ i = .ret ∨ ∃ a, i = .jmp a := by
  cases i with
  | call a => exact iff_of_true (by decide : setsPc Opcode.call = true) (.inl ⟨a, rfl⟩)
  | ret => exact iff_of_true (by decide : setsPc Opcode.ret = true) (.inr (.inl rfl))
  | jmp a => exact iff_of_true (by decide : setsPc Opcode.jmp = true) (.inr (.inr ⟨a, rfl⟩))
  | _ => exact iff_of_false (by dsimp only [Instr.opcode]; decide) (by simp)

/-! ### The bytes that the decoder rejects by their count -/

/-- No format has more than two operand bytes (rule R65). -/
theorem operandBytes_le_two (fmt : Format) : fmt.operandBytes ≤ 2 := by
  cases fmt <;> decide

/-- What the decoder accepts has an operand count of at most 2 (rule R62). -/
theorem operandCount_le_two_of_decode_ok {f : Fetched} {i : Instr} (h : decode f = .ok i) :
    operandCount f.op ≤ 2 := by
  obtain ⟨hop, -⟩ := decode_ok h
  rw [← hop, operandCount_opcode]
  exact operandBytes_le_two i.format

/-- A byte with operand count 3 is no instruction's opcode, so the decoder rejects it (rule R62). -/
theorem decode_of_operandCount_three {f : Fetched} (h : operandCount f.op = 3) :
    decode f = .error (.unknownOpcode f.op) := by
  cases hd : decode f with
  | error e => rw [decode_error hd]
  | ok i =>
    have hle := operandCount_le_two_of_decode_ok hd
    omega

end Sys2Proof

open Sys2Proof in
/-- Settles O3: the count of each opcode and the number of operand bytes are both those of the instruction's format, and
the sets-pc bit is read off the constructor. -/
theorem opcodeBitsCarryTheShape : Obligations.OpcodeBitsCarryTheShape :=
  ⟨⟨operandCount_opcode .hlt, operandCount_opcode .ret⟩,
    fun a => ⟨operandCount_opcode (.prn a), operandCount_opcode (.push a), operandCount_opcode (.pop a),
      operandCount_opcode (.call a), operandCount_opcode (.jmp a)⟩,
    fun a b => ⟨operandCount_opcode (.ldi a b), operandCount_opcode (.st a b), operandCount_opcode (.add a b),
      operandCount_opcode (.sub a b), operandCount_opcode (.mul a b), operandCount_opcode (.and a b),
      operandCount_opcode (.or a b)⟩,
    fun i => ⟨(operands_length i).trans (operandCount_opcode i).symm, setsPc_opcode_iff i⟩⟩

open Sys2Proof Sys2Proof.Machine in
/-- Settles O4: each field is the arithmetic of its bits, no instruction's opcode has operand count 3, and the advance
does nothing under the sets-pc bit. -/
theorem opcodeFieldsAreTheBitsOfTheByte : Obligations.OpcodeFieldsAreTheBitsOfTheByte := fun op =>
  ⟨operandCount_eq_div op, setsPc_iff op, fun h _ _ => decode_of_operandCount_three h,
    fun h s => advance_of_setsPc s h⟩
end

section
/-!
PROOFS. HLT: the advance by one byte, the halt, and that a stopped core takes no step (rules R80, R87 and R100).
-/

namespace Sys2Proof.Machine

/-- A core that is not Running takes no step, and answers the reason of its run state (rule R80). -/
theorem step_of_stopReason {s : State} {r : Fault} (h : stopReason s.status = some r) : step s = .fault r := by
  simp only [step, h]

/-- HLT has no operands, so its byte decodes to it before any two bytes (rule R100). -/
theorem decode_hlt (a b : Byte) : decode { op := Opcode.hlt, a := a, b := b } = .ok .hlt :=
  Laws.RoundTrip.hlt a b

theorem step_halt (s : State) : step s.halt = .fault .halted :=
  step_of_stopReason (show stopReason s.halt.status = some .halted from rfl)

/-- The next state that `exec_hlt` names differs from `s` in `pc` and in the run state only (rule R100). -/
theorem halt_setPc_frame (s : State) (p : Byte) :
    (∀ r, (s.setPc p).halt.readReg r = s.readReg r) ∧ (∀ c, (s.setPc p).halt.memRead c = s.memRead c) ∧
      (s.setPc p).halt.output = s.output ∧ (s.setPc p).halt.fault = s.fault := by
  simp [State.halt]

end Sys2Proof.Machine

open Sys2Proof Sys2Proof.Machine in
/-- Settles O32: `exec_hlt` names the next state, which is the old one but for `pc` and the run state, and a Halted core
takes no step. -/
theorem hltHaltsAfterTheAdvance : Obligations.HltHaltsAfterTheAdvance := by
  refine ⟨rfl, Laws.OpcodeShape.count_hlt, show setsPc Opcode.hlt = false by decide, decode_hlt, fun s => ?_⟩
  obtain ⟨hregs, hmem, hout, hfault⟩ := halt_setPc_frame s (s.pc + 1)
  exact ⟨_, exec_hlt s, BitVec.toNat_add s.pc 1, rfl, hregs, hmem, hout, hfault, step_halt _⟩
end

section
/-!
PROOFS. One instruction run over two memories: only POP can tell them apart in a register, and only RET in `pc` (rule
R113).
-/

namespace Sys2Proof.Machine

/-- What two runs of `i` that differed in memory alone must still agree on: POP may have loaded different registers and
RET a different `pc`. -/
structure AgreeAfter (i : Instr) (t t' : State) : Prop where
  regs : (∀ a, i ≠ .pop a) → t'.regs = t.regs
  pc : i ≠ .ret → t'.pc = t.pc
  output : t'.output = t.output

variable {i : Instr} {s s' t t' : State}

/-- Outcomes that differ in memory, run state and fault record at most agree for every instruction. -/
theorem AgreeAfter.of_eq (hregs : t'.regs = t.regs) (hpc : t'.pc = t.pc) (hout : t'.output = t.output) :
    AgreeAfter i t t' := ⟨fun _ => hregs, fun _ => hpc, hout⟩

/-! ### What every instruction's step has in common -/

theorem AgreeAfter.advance (h : AgreeAfter i t t') (op : Byte) : AgreeAfter i (t.advance op) (t'.advance op) where
  regs hi := by simpa only [advance_regs] using h.regs hi
  pc hi := by simp only [advance_pc, h.pc hi]
  output := by simpa only [advance_output] using h.output

theorem AgreeAfter.raiseIllegalRegister (h : AgreeAfter i s s') (op byte : Byte) (slot : FaultSlot) :
    AgreeAfter i (s.raiseIllegalRegister op byte slot) (s'.raiseIllegalRegister op byte slot) :=
  ⟨h.regs, h.pc, h.output⟩

/-- The register check asks the operand byte alone, so both runs take the fault or both complete the action. -/
theorem AgreeAfter.withReg {a : Byte} {action : RegId → State → State} (hs : AgreeAfter i s s')
    (hact : ∀ r, AgreeAfter i (action r s) (action r s'))
    (h : withReg i a s action = .next t) (h' : withReg i a s' action = .next t') : AgreeAfter i t t' := by
  rcases Nat.lt_or_ge a.toNat 8 with hlt | hge
  · have ha : Names a ⟨a.toNat, hlt⟩ := rfl
    rw [withReg_of_names ha] at h h'
    cases h; cases h'
    exact (hact _).advance _
  · rw [withReg_of_ge hge] at h h'
    cases h; cases h'
    exact hs.raiseIllegalRegister _ _ _

/-- The same of two register operands. -/
theorem AgreeAfter.withTwoRegs {a b : Byte} {action : RegId → RegId → State → State} (hs : AgreeAfter i s s')
    (hact : ∀ ra rb, AgreeAfter i (action ra rb s) (action ra rb s'))
    (h : withTwoRegs i a b s action = .next t) (h' : withTwoRegs i a b s' action = .next t') :
    AgreeAfter i t t' := by
  rcases Nat.lt_or_ge a.toNat 8 with hlta | hgea
  · rcases Nat.lt_or_ge b.toNat 8 with hltb | hgeb
    · have ha : Names a ⟨a.toNat, hlta⟩ := rfl
      have hb : Names b ⟨b.toNat, hltb⟩ := rfl
      rw [withTwoRegs_of_names ha hb] at h h'
      cases h; cases h'
      exact (hact _ _).advance _
    · rw [withTwoRegs_of_ge_right hlta hgeb] at h h'
      cases h; cases h'
      exact hs.raiseIllegalRegister _ _ _
  · rw [withTwoRegs_of_ge_left hgea] at h h'
    cases h; cases h'
    exact hs.raiseIllegalRegister _ _ _

/-! ### The actions over another memory -/

/-- POP's byte goes to the registers alone (rule R142). -/
theorem agreeAfter_popAction (a : Byte) (ra : RegId) (s : State) (m : Memory) :
    AgreeAfter (.pop a) (popAction ra s) (popAction ra { s with mem := m }) :=
  ⟨fun hne => absurd rfl (hne a), fun _ => rfl, rfl⟩

/-- RET's byte goes to `pc` alone (rule R152). -/
theorem agreeAfter_retAction (s : State) (m : Memory) :
    AgreeAfter .ret (retAction s) (retAction { s with mem := m }) :=
  ⟨fun _ => rfl, fun hne => absurd rfl hne, rfl⟩

/-- The actions other than those of POP and RET read no memory, so their runs agree on registers, `pc` and output. -/
theorem exec_agreeAfter {m : Memory} (h : exec i s = .next t) (h' : exec i { s with mem := m } = .next t') :
    AgreeAfter i t t' := by
  have hs : AgreeAfter i s { s with mem := m } := .of_eq rfl rfl rfl
  cases i with
  | hlt =>
    rw [exec_hlt] at h h'
    cases h; cases h'
    exact .of_eq rfl rfl rfl
  | ret =>
    rw [exec_ret] at h h'
    cases h; cases h'
    exact agreeAfter_retAction s m
  | pop a => exact .withReg hs (fun ra => agreeAfter_popAction a ra s m) h h'
  | ldi a imm => exact .withReg (action := ldiAction imm) hs (fun _ => .of_eq rfl rfl rfl) h h'
  | prn a => exact .withReg (action := prnAction) hs (fun _ => .of_eq rfl rfl rfl) h h'
  | push a => exact .withReg (action := pushAction) hs (fun _ => .of_eq rfl rfl rfl) h h'
  | call a => exact .withReg (action := callAction 2) hs (fun _ => .of_eq rfl rfl rfl) h h'
  | jmp a => exact .withReg (action := jmpAction) hs (fun _ => .of_eq rfl rfl rfl) h h'
  | st a b => exact .withTwoRegs (action := stAction) hs (fun _ _ => .of_eq rfl rfl rfl) h h'
  | add a b => exact .withTwoRegs (action := aluAction .add) hs (fun _ _ => .of_eq rfl rfl rfl) h h'
  | sub a b => exact .withTwoRegs (action := aluAction .sub) hs (fun _ _ => .of_eq rfl rfl rfl) h h'
  | mul a b => exact .withTwoRegs (action := aluAction .mul) hs (fun _ _ => .of_eq rfl rfl rfl) h h'
  | and a b => exact .withTwoRegs (action := aluAction .and) hs (fun _ _ => .of_eq rfl rfl rfl) h h'
  | or a b => exact .withTwoRegs (action := aluAction .or) hs (fun _ _ => .of_eq rfl rfl rfl) h h'

end Sys2Proof.Machine

open Sys2Proof.Machine in
/-- Settles O25: the register check is the same over both memories, and no action but POP's and RET's reads one. -/
theorem onlyPopAndRetReadMemory : Obligations.OnlyPopAndRetReadMemory := fun _ _ _ _ _ h h' =>
  have hagree := exec_agreeAfter h h'
  ⟨hagree.regs, hagree.pc, hagree.output⟩
end

section
/-!
PROOFS. What an ALU action writes and what it leaves unchanged, for all five operations at once (rules R120 and R128).
-/

namespace Sys2Proof.Machine

variable (s : State) (op : AluOp) (ra rb : RegId)

/-- The destination holds `f_OP` of the old values, also where it is the second operand too (rule R120). -/
theorem readReg_aluAction_same :
    (aluAction op ra rb s).readReg ra = op.result (s.readReg ra) (s.readReg rb) :=
  readReg_writeReg_same s ra _

theorem readReg_aluAction_other {r : RegId} (h : r ≠ ra) : (aluAction op ra rb s).readReg r = s.readReg r :=
  readReg_writeReg_other s h.symm _

theorem memRead_aluAction (c : Byte) : (aluAction op ra rb s).memRead c = s.memRead c :=
  memRead_writeReg s ra _ c

theorem aluAction_pc : (aluAction op ra rb s).pc = s.pc := writeReg_pc s ra _

end Sys2Proof.Machine

open Sys2Proof.Machine in
/-- Settles O42: the register file's read-after-write laws give the destination and the other registers, and the one write
leaves the rest of the state alone. -/
theorem aluWritesOnlyItsFirstOperand : Obligations.AluWritesOnlyItsFirstOperand := fun op ra rb s =>
  have hquiet := quiet_aluAction s op ra rb
  ⟨readReg_aluAction_same s op ra rb, fun _ hr => readReg_aluAction_other s op ra rb hr,
    readReg_aluAction_same s op ra ra, memRead_aluAction s op ra rb, aluAction_pc s op ra rb,
    hquiet.status, hquiet.fault, hquiet.output⟩
end

section
/-!
PROOFS. What can write the fault record: a fault of the core, with the code of one of the two causes of rule R170, and
the host's reset, which clears it. So the reserved code 3 is never in it (rule R173).
-/

namespace Sys2Proof.Machine

/-! ### The causes that a record can hold -/

/-- A record's cause is that of no fault, or the code of a cause that the core raises (rules R33, R170). -/
def FaultRecord.HoldsRaisedCause (r : FaultRecord) : Prop :=
  r.cause = FaultRecord.none.cause ∨ ∃ c : FaultCause, r.cause = c.code

/-- Code 3 has no cause (rules R129, R173). -/
theorem FaultCause.code_ne_three (c : FaultCause) : c.code ≠ 3 := by
  cases c <;> decide

theorem FaultRecord.HoldsRaisedCause.cause_ne_three {r : FaultRecord} (h : r.HoldsRaisedCause) : r.cause ≠ 3 := by
  rcases h with hnone | ⟨c, hc⟩
  · rw [hnone]
    decide
  · rw [hc]
    exact c.code_ne_three

variable {s t : State}

/-! ### A step -/

/-- An instruction that completes leaves the fault record as it was (rule R91). -/
theorem Effect.fault_eq {i : Instr} (h : Effect i s t) : t.fault = s.fault := by
  cases h with
  | hlt => rfl
  | prn => rfl
  | ldi => exact (setPc_fault _ _).trans (quiet_ldiAction s _ _).fault
  | st => exact (setPc_fault _ _).trans (quiet_stAction s _ _).fault
  | add => exact (setPc_fault _ _).trans (quiet_aluAction s .add _ _).fault
  | sub => exact (setPc_fault _ _).trans (quiet_aluAction s .sub _ _).fault
  | mul => exact (setPc_fault _ _).trans (quiet_aluAction s .mul _ _).fault
  | and => exact (setPc_fault _ _).trans (quiet_aluAction s .and _ _).fault
  | or => exact (setPc_fault _ _).trans (quiet_aluAction s .or _ _).fault
  | push => exact (setPc_fault _ _).trans (quiet_pushAction s _).fault
  | pop => exact (setPc_fault _ _).trans (quiet_popAction s _).fault
  | call => exact (quiet_callAction s 2 _).fault
  | ret => exact (quiet_retAction s).fault
  | jmp => exact (quiet_jmpAction s _).fault

/-- The only fault of an instruction's own step is ILLEGAL_REGISTER (rule R172). -/
theorem exec_fault_cases {i : Instr} (h : exec i s = .next t) :
    t.fault = s.fault ∨ t.fault.cause = FaultCause.illegalRegister.code := by
  rcases exec_cases i s with ⟨_, _, -, -, hexec⟩ | ⟨-, -, _, hexec, heff⟩
  · cases hexec.symm.trans h
    exact .inr rfl
  · cases hexec.symm.trans h
    exact .inl heff.fault_eq

/-- A step keeps the fault record, or records one of the two causes (rule R170). -/
theorem step_fault_cases (h : step s = .next t) : t.fault = s.fault ∨ ∃ c : FaultCause, t.fault.cause = c.code := by
  obtain ⟨-, ⟨-, rfl⟩ | ⟨_, -, hexec⟩⟩ := step_cases h
  · exact .inr ⟨.unknownOpcode, rfl⟩
  · exact (exec_fault_cases hexec).imp_right fun hcause => ⟨.illegalRegister, hcause⟩

/-! ### The host's interactions -/

theorem copyBytes_fault (s : State) (k : Nat) (image : List Byte) : (s.copyBytes k image).fault = s.fault := by
  induction image generalizing s k with
  | nil => rfl
  | cons v rest ih => exact (ih (s.memWrite (BitVec.ofNat 8 k) v) (k + 1)).trans (memWrite_fault s _ v)

theorem hostLoad_fault (image : List Byte) (s : State) : (hostLoad image s).fault = s.fault := by
  unfold hostLoad
  split
  · exact copyBytes_fault s 0 image
  · rfl

theorem hostStart_fault (s : State) : (hostStart s).fault = s.fault := by
  unfold hostStart
  split
  · exact setStatus_fault s .running
  · rfl

/-- No interaction writes the fault record but reset, which clears it (rules R200 to R205). -/
theorem hostAct_fault_cases (act : HostAction) (s : State) :
    (hostAct act s).2.fault = s.fault ∨ (hostAct act s).2.fault = FaultRecord.none := by
  cases act with
  | reset => exact .inr rfl
  | load image => exact .inl (hostLoad_fault image s)
  | start => exact .inl (hostStart_fault s)
  | output => exact .inl rfl
  | inspect => exact .inl rfl
  | status => exact .inl rfl

/-- The record in a status reply is the one in the state (rules R32, R33). -/
theorem record_eq_of_runStatus {act : HostAction} {code : BitVec 2} {record : FaultRecord}
    (h : (hostAct act s).1 = .runStatus code record) : record = s.fault := by
  cases act with
  | status =>
    cases h
    rfl
  | load image =>
    have hreply : (if loadAccepted s image then HostReply.accepted else .refused) = .runStatus code record := h
    split at hreply <;> cases hreply
  | _ => cases h

/-! ### The states that the core can be in -/

theorem Reachable.holdsRaisedCause (h : Reachable s) : s.fault.HoldsRaisedCause := by
  induction h with
  | reset => exact .inl rfl
  | step _ hstep ih =>
    rcases step_fault_cases hstep with hkept | hraised
    · rwa [hkept]
    · exact .inr hraised
  | host act _ ih =>
    rcases hostAct_fault_cases act _ with hkept | hcleared
    · rwa [hkept]
    · exact .inl (congrArg FaultRecord.cause hcleared)

end Sys2Proof.Machine

open Sys2Proof.Machine in
/-- Settles O30, by induction on the way to the state: only the core's two causes and reset write the record, and a
status reply shows the record as it is. -/
theorem reservedFaultCodeIsNeverSeen : Obligations.ReservedFaultCodeIsNeverSeen := fun s hs =>
  have hcause : s.fault.cause ≠ 3 := hs.holdsRaisedCause.cause_ne_three
  ⟨hcause, fun _ _ _ hreply => record_eq_of_runStatus hreply ▸ hcause⟩
end

section
/-!
PROOFS. Decoder and encoder as inverses of one another, one way of splitting, and the bytes that are no opcode (rules R60,
R61, R68, R70 and R71).
-/

namespace Sys2Proof

/-! ### From an instruction to its bytes and back -/

/-- The per-instruction round trips, joined over the constructors. -/
theorem roundTrip : ∀ i : Instr, Laws.RoundTrip.Statement i
  | .hlt => Laws.RoundTrip.hlt
  | .ldi a imm => Laws.RoundTrip.ldi a imm
  | .prn a => Laws.RoundTrip.prn a
  | .st a b => Laws.RoundTrip.st a b
  | .add a b => Laws.RoundTrip.add a b
  | .sub a b => Laws.RoundTrip.sub a b
  | .mul a b => Laws.RoundTrip.mul a b
  | .and a b => Laws.RoundTrip.and a b
  | .or a b => Laws.RoundTrip.or a b
  | .push a => Laws.RoundTrip.push a
  | .pop a => Laws.RoundTrip.pop a
  | .call a => Laws.RoundTrip.call a
  | .ret => Laws.RoundTrip.ret
  | .jmp a => Laws.RoundTrip.jmp a

/-- A fetch latches at most two bytes after the opcode, so two bytes stand for any tail (rule R81). -/
theorem ofBytes_append (op : Byte) (operands tail : List Byte) :
    Fetched.ofBytes (op :: operands ++ tail) =
      Fetched.ofBytes (op :: operands ++ [tail.getD 0 0, tail.getD 1 0]) :=
  match operands with
  | [] => rfl
  | [_] => rfl
  | _ :: _ :: _ => rfl

/-- The bytes of an instruction decode to it, whatever bytes stand after them (rule R71). -/
theorem decode_ofBytes_encode (i : Instr) (tail : List Byte) :
    decode (Fetched.ofBytes (encode i ++ tail)) = .ok i := by
  rw [encode, ofBytes_append]
  exact roundTrip i _ _

/-- What the decoder accepts is the instruction's bytes and then the bytes that its format does not use (rule R65). -/
theorem bytes_eq_encode_append {f : Fetched} {i : Instr} (h : decode f = .ok i) :
    f.bytes = encode i ++ [f.a, f.b].drop i.format.operandBytes := by
  obtain ⟨hop, hops⟩ := decode_ok h
  rw [encode, hop, hops, List.cons_append, List.take_append_drop]
  rfl

/-- The opcode of an accepted byte triple tells the length of its instruction (rule R60). -/
theorem instructionLength_of_decode_ok {f : Fetched} {i : Instr} (h : decode f = .ok i) :
    instructionLength f.op = i.format.operandBytes + 1 := by
  obtain ⟨hop, -⟩ := decode_ok h
  rw [instructionLength, ← hop, operandCount_opcode]

/-! ### The bytes that are no opcode -/

/-- The opcode bytes of the map (rule R68). -/
def mappedOpcodes : List Byte := opcodeMap.map Prod.fst

theorem mappedOpcodes_eq : mappedOpcodes =
    [0x01, 0x82, 0x47, 0x84, 0xA0, 0xA1, 0xA2, 0xA8, 0xAA, 0x45, 0x46, 0x50, 0x11, 0x54] := rfl

/-- The decoder rejects exactly the opcodes outside the map (rules R70, R83). -/
theorem decode_eq_error_iff (f : Fetched) : decode f = .error (.unknownOpcode f.op) ↔ f.op ∉ mappedOpcodes := by
  unfold decode
  split
  · rename_i row hrow
    have hop : row.1 = f.op := by simpa using List.find?_some hrow
    have hmapped : f.op ∈ mappedOpcodes := List.mem_map.mpr ⟨row, List.mem_of_find?_eq_some hrow, hop⟩
    simp [hmapped]
  · rename_i hnone
    have hunmapped : f.op ∉ mappedOpcodes := fun hmem => by
      obtain ⟨row, hrow, hop⟩ := List.mem_map.mp hmem
      exact List.find?_eq_none.mp hnone row hrow (beq_iff_eq.mpr hop)
    simp [hunmapped]

theorem decodeTableWord_isNone_iff (nbits w : Nat) :
    (decodeTableWord nbits w).isNone = true ↔ (tableBytes nbits w).op ∉ mappedOpcodes := by
  rw [← decode_eq_error_iff, decodeTableWord]
  cases h : decode (tableBytes nbits w) with
  | ok i => simp
  | error e => simp [decode_error h]

/-- A table word of one byte is no instruction exactly when the byte's number is not that of a mapped opcode. -/
theorem decodeTableWord_byte_isNone_iff {n : Nat} (hn : n < 256) :
    (decodeTableWord 8 n).isNone = true ↔ n ∉ mappedOpcodes.map BitVec.toNat := by
  have hop : (tableBytes 8 n).op.toNat = n := by simp [tableBytes, Nat.mod_eq_of_lt hn]
  rw [decodeTableWord_isNone_iff, ← hop, List.mem_map_of_injective fun _ _ => BitVec.eq_of_toNat_eq, hop]

/-- The 14 mapped opcodes leave 242 of the 256 bytes (rule R70). -/
theorem length_rejectedBytes : ((List.range 256).filter fun n => (decodeTableWord 8 n).isNone).length = 242 := by
  have hopcodes : (mappedOpcodes.map BitVec.toNat).toFinset ⊆ Finset.range 256 := fun n hn => by
    obtain ⟨op, -, rfl⟩ := List.mem_map.mp (List.mem_toFinset.mp hn)
    exact Finset.mem_range.mpr op.isLt
  calc ((List.range 256).filter fun n => (decodeTableWord 8 n).isNone).length
    _ = ((List.range 256).filter fun n => (decodeTableWord 8 n).isNone).toFinset.card :=
        (List.toFinset_card_of_nodup (List.nodup_range.filter _)).symm
    _ = (Finset.range 256 \ (mappedOpcodes.map BitVec.toNat).toFinset).card := by
        refine congrArg Finset.card (Finset.ext fun n => ?_)
        simp only [List.mem_toFinset, List.mem_filter, List.mem_range, Finset.mem_sdiff, Finset.mem_range]
        exact and_congr_right fun hn => decodeTableWord_byte_isNone_iff hn
    _ = 242 := by
        rw [Finset.card_sdiff_of_subset hopcodes, Finset.card_range]
        rfl

end Sys2Proof

open Sys2Proof in
/-- Settles O1: an instruction's bytes decode to it before any tail, and an accepted triple is the instruction's bytes and
the operand bytes that its format leaves over. -/
theorem decodeAndEncodeAgree : Obligations.DecodeAndEncodeAgree := by
  refine ⟨roundTrip, fun f i h => ⟨_, bytes_eq_encode_append h, ?_⟩⟩
  have hle := operandBytes_le_two i.format
  rw [instructionLength_of_decode_ok h, List.length_drop]
  simp only [List.length_cons, List.length_nil]
  omega

open Sys2Proof in
/-- Settles O2: the one byte sequence decodes to both instructions, so they are equal, and the tails with them. -/
theorem encodingsArePrefixFree : Obligations.EncodingsArePrefixFree := by
  intro i j p q h
  have hi := decode_ofBytes_encode i p
  rw [h, decode_ofBytes_encode j q] at hi
  obtain rfl := Except.ok.inj hi
  exact ⟨rfl, List.append_cancel_left h⟩

open Sys2Proof in
/-- Settles O5: the decoder searches the map for the opcode alone, and the map has 14 of the 256 bytes. -/
theorem decoderRejectsExactlyTheOtherBytes : Obligations.DecoderRejectsExactlyTheOtherBytes :=
  ⟨decode_eq_error_iff, length_rejectedBytes⟩

open Sys2Proof in
/-- Settles O6: each word is the bytes of its instruction before some tail. -/
theorem wordsOfEachFamilyDecode : Obligations.WordsOfEachFamilyDecode :=
  ⟨roundTrip (.ldi 0 8) 0 0, roundTrip (.add 0 1) 0 0, roundTrip (.prn 0) 1 0, roundTrip (.st 2 3) 0 0,
    roundTrip (.sub 0 1) 0 0, roundTrip (.push 2) 0x46 0, roundTrip (.call 1) 0x47 0, roundTrip .ret 0xFF 0xFF⟩
end

section
/-!
PROOFS. The canonical form of memory determines memory: canonical memories that read alike are equal, and so are states
whose writes read alike (log entry 1).
-/

namespace Sys2Proof.Machine

/-! ### The entries of a canonical memory are its readings -/

/-- An entry of a rising list is what its address reads as. -/
theorem lookup_of_mem {m : Memory} (h : m.Pairwise (fun c d => c.1 < d.1)) {c : Host.Cell} (hc : c ∈ m) :
    m.lookup c.1 = c.2 := by
  induction m with
  | nil => simp at hc
  | cons d rest ih =>
    obtain ⟨hd, hrest⟩ := List.pairwise_cons.mp h
    obtain rfl | hc := List.mem_cons.mp hc
    · rw [Memory.lookup, if_pos rfl]
    · rw [Memory.lookup, if_neg (Nat.ne_of_lt (hd c hc))]
      exact ih hrest hc

/-- A cell that reads otherwise than unlisted is listed. -/
theorem mem_of_lookup_ne {m : Memory} {k : Nat} (h : m.lookup k ≠ Memory.unlisted) : (k, m.lookup k) ∈ m := by
  induction m with
  | nil => exact absurd rfl h
  | cons d rest ih =>
    by_cases hd : d.1 = k
    · rw [Memory.lookup, if_pos hd, ← hd]
      exact List.mem_cons_self
    · rw [Memory.lookup, if_neg hd] at h ⊢
      exact List.mem_cons_of_mem _ (ih h)

theorem mem_iff_lookup {m : Memory} (h : m.wf) (c : Host.Cell) :
    c ∈ m ↔ c.1 < Config.memorySize ∧ c.2 ≠ Memory.unlisted ∧ m.lookup c.1 = c.2 := by
  constructor
  · intro hc
    obtain ⟨hlt, hne⟩ := h.2 c hc
    exact ⟨hlt, hne, lookup_of_mem h.1 hc⟩
  · rintro ⟨-, hne, hread⟩
    have hmem := mem_of_lookup_ne (m := m) (k := c.1) (hread ▸ hne)
    rwa [hread] at hmem

/-- Two canonical memories with the same readings have the same entries in the same order. -/
theorem mem_eq_of_memRead {s t : State} (hs : s.mem.wf) (ht : t.mem.wf) (h : ∀ c, t.memRead c = s.memRead c) :
    t.mem = s.mem := by
  have hlookup : ∀ k < Config.memorySize, t.mem.lookup k = s.mem.lookup k := fun k hk => by
    simpa only [State.memRead, BitVec.toNat_ofNat, Nat.mod_eq_of_lt (show k < 2 ^ 8 from hk)] using h (BitVec.ofNat 8 k)
  have hentries (c : Host.Cell) : c ∈ t.mem ↔ c ∈ s.mem := by
    rw [mem_iff_lookup ht, mem_iff_lookup hs]
    exact and_congr_right fun hk => by rw [hlookup c.1 hk]
  have hirrefl : Std.Irrefl (fun c d : Host.Cell => c.1 < d.1) := ⟨fun c => Nat.lt_irrefl c.1⟩
  have hantisymm : Std.Antisymm (fun c d : Host.Cell => c.1 < d.1) := ⟨fun _ _ h h' => absurd h' (Nat.lt_asymm h)⟩
  exact ht.1.eq_of_mem_iff hs.1 hentries

/-- States that differ in memory alone are equal when their canonical memories read alike. -/
theorem eq_of_memRead {s t : State} (hs : s.mem.wf) (ht : t.mem.wf) (h : ∀ c, t.memRead c = s.memRead c)
    (hframe : t = { s with mem := t.mem }) : t = s := by
  rw [hframe, mem_eq_of_memRead hs ht h]

/-! ### Writes as equalities of states -/

variable {s : State}

theorem memWrite_comm (h : s.mem.wf) {a b : Byte} (hab : a ≠ b) (v w : Byte) :
    (s.memWrite a v).memWrite b w = (s.memWrite b w).memWrite a v := by
  refine eq_of_memRead (wf_memWrite (wf_memWrite h b w) a v) (wf_memWrite (wf_memWrite h a v) b w) (fun c => ?_) rfl
  simp only [memRead_memWrite]
  by_cases hb : c = b
  · rw [if_pos hb, if_neg (hb ▸ hab.symm), if_pos hb]
  · rw [if_neg hb, if_neg hb]

theorem memWrite_overwrite (h : s.mem.wf) (a v w : Byte) : (s.memWrite a v).memWrite a w = s.memWrite a w := by
  refine eq_of_memRead (wf_memWrite h a w) (wf_memWrite (wf_memWrite h a v) a w) (fun c => ?_) rfl
  simp only [memRead_memWrite]
  by_cases ha : c = a
  · rw [if_pos ha, if_pos ha]
  · rw [if_neg ha, if_neg ha, if_neg ha]

theorem memWrite_memRead (h : s.mem.wf) (a : Byte) : s.memWrite a (s.memRead a) = s := by
  refine eq_of_memRead h (wf_memWrite h a _) (fun c => ?_) rfl
  rw [memRead_memWrite]
  split <;> simp only [*]

end Sys2Proof.Machine

open Sys2Proof.Machine in
/-- Settles O8: the entries of a canonical memory are its readings other than unlisted, and a rising list is determined by
its entries. -/
theorem canonicalMemoriesThatReadAlikeAreEqual : Obligations.CanonicalMemoriesThatReadAlikeAreEqual :=
  fun _ _ => mem_eq_of_memRead

open Sys2Proof.Machine in
/-- Settles O9: both sides of each equality are canonical and read alike in every cell. -/
theorem canonicalWritesAreExtensional : Obligations.CanonicalWritesAreExtensional := fun _ h a _ v w =>
  ⟨fun hab => memWrite_comm h hab v w, memWrite_overwrite h a v w, memWrite_memRead h a⟩
end

section
/-!
PROOFS. What a step of a Running core runs (rules R81 to R89), and the step decided by the pending fault (rules R91, R101
and R170 to R176).
-/

namespace Sys2Proof.Machine

variable {s t : State} {i : Instr}

/-! ### The step of a Running core -/

theorem step_of_decode_ok (hrun : s.status = .running) (hd : decode (fetch s) = .ok i) : step s = exec i s := by
  simp only [step, stopReason_eq_none.mpr hrun, hd]

theorem step_of_decode_error (hrun : s.status = .running) {op : Byte}
    (hd : decode (fetch s) = .error (.unknownOpcode op)) : step s = .next (s.raiseUnknownOpcode op) := by
  simp only [step, stopReason_eq_none.mpr hrun, hd]

/-- Where memory holds the bytes of an instruction from `pc` up, the fetched bytes decode to it (rules R54, R61). -/
theorem decode_fetch_of_bytes
    (h : ∀ k (hk : k < (encode i).length), s.memRead (s.pc + BitVec.ofNat 8 k) = (encode i)[k]) :
    decode (fetch s) = .ok i := by
  have hop : s.memRead s.pc = i.opcode := by simpa [encode] using h 0 (by simp [encode])
  have hlen := operands_length i
  have hle := operandBytes_le_two i.format
  refine decode_eq_iff.mpr ⟨hop.symm, List.ext_getElem (by simp; omega) fun k hk _ => ?_⟩
  have hread : s.memRead (s.pc + BitVec.ofNat 8 (k + 1)) = i.operands[k] := h (k + 1) (by simpa [encode] using hk)
  rw [← hread, List.getElem_take]
  obtain rfl | rfl : k = 0 ∨ k = 1 := by omega
  · rfl
  · rfl

/-- UNKNOWN_OPCODE writes the run state and the record alone (rules R171, R175). -/
theorem unknownOpcode_taken (s : State) (op : Byte) : FaultTaken 1 op 0 0 s (s.raiseUnknownOpcode op) :=
  ⟨rfl, rfl, fun _ => rfl, fun _ => rfl, rfl, rfl⟩

/-! ### The effect of an instruction on the run state, the record, the output and the canonical form -/

/-- Every instruction but HLT and PRN leaves the run state, the record and the output stream as they are. -/
theorem Effect.quiet (h : Effect i s t) (hhlt : i ≠ .hlt) (hprn : ∀ a, i ≠ .prn a) : Quiet s t := by
  cases h with
  | hlt => exact absurd rfl hhlt
  | prn => exact absurd rfl (hprn _)
  | ldi => exact quiet_trans (quiet_ldiAction s _ _) (quiet_setPc _ _)
  | st => exact quiet_trans (quiet_stAction s _ _) (quiet_setPc _ _)
  | add => exact quiet_trans (quiet_aluAction s .add _ _) (quiet_setPc _ _)
  | sub => exact quiet_trans (quiet_aluAction s .sub _ _) (quiet_setPc _ _)
  | mul => exact quiet_trans (quiet_aluAction s .mul _ _) (quiet_setPc _ _)
  | and => exact quiet_trans (quiet_aluAction s .and _ _) (quiet_setPc _ _)
  | or => exact quiet_trans (quiet_aluAction s .or _ _) (quiet_setPc _ _)
  | push => exact quiet_trans (quiet_pushAction s _) (quiet_setPc _ _)
  | pop => exact quiet_trans (quiet_popAction s _) (quiet_setPc _ _)
  | call => exact quiet_callAction s 2 _
  | ret => exact quiet_retAction s
  | jmp => exact quiet_jmpAction s _

/-- HLT alone changes the run state (rule R91). -/
theorem Effect.status_eq (h : Effect i s t) : t.status = if i = .hlt then .halted else s.status := by
  cases i with
  | hlt =>
    cases h
    rfl
  | prn =>
    cases h
    rfl
  | _ => exact (h.quiet nofun nofun).status.trans (if_neg nofun).symm

theorem Effect.status_ne_faulted (h : Effect i s t) (hrun : s.status = .running) : t.status ≠ .faulted := by
  rw [h.status_eq, hrun]
  split <;> decide

/-- Every instruction keeps the canonical form of memory. -/
theorem Effect.wf (h : Effect i s t) (hs : s.mem.wf) : t.mem.wf := by
  cases i with
  | hlt =>
    cases h
    exact hs
  | prn =>
    cases h
    exact hs
  | _ => exact (h.quiet nofun nofun).wf hs

/-! ### The pending fault -/

theorem pendingFault_of_decode_error {op : Byte} (hd : decode (fetch s) = .error (.unknownOpcode op)) :
    pendingFault s = some { cause := 1, pc := s.pc, opcode := op, operand := 0, slot := 0 } := by
  simp only [pendingFault, hd]

theorem pendingFault_of_legal (hd : decode (fetch s) = .ok i) (hi : firstIllegal i = none) : pendingFault s = none := by
  simp only [pendingFault, hd, hi]

theorem pendingFault_of_illegal (hd : decode (fetch s) = .ok i) {slot byte : Byte}
    (hi : firstIllegal i = some (slot, byte)) :
    pendingFault s = some { cause := 2, pc := s.pc, opcode := i.opcode, operand := byte, slot := slot } := by
  simp only [pendingFault, hd, hi, (decode_ok hd).1]
  rfl

/-- The step that takes the pending fault, or the step of an instruction that has none. -/
inductive RunningStep (s : State) : Prop where
  | faults (r : FaultRecord) (hpending : pendingFault s = some r)
      (hstep : step s = .next { s with status := .faulted, fault := r })
  | completes (i : Instr) (t : State) (hpending : pendingFault s = none) (hdecode : decode (fetch s) = .ok i)
      (hstep : step s = .next t) (heffect : Effect i s t)

/-- A Running core always has a step, and the pending fault decides which (rules R80, R91, R175). -/
theorem runningStep (hrun : s.status = .running) : RunningStep s := by
  cases hd : decode (fetch s) with
  | error e =>
    obtain rfl := decode_error hd
    exact .faults _ (pendingFault_of_decode_error hd) (step_of_decode_error hrun hd)
  | ok i =>
    have hstep := step_of_decode_ok hrun hd
    rcases exec_cases i s with ⟨_, _, hillegal, -, hexec⟩ | ⟨hlegal, -, t, hexec, heff⟩
    · exact .faults _ (pendingFault_of_illegal hd hillegal) (hstep.trans hexec)
    · exact .completes i t (pendingFault_of_legal hd hlegal) hd (hstep.trans hexec) heff

/-! ### HLT -/

/-- HLT is the instruction whose opcode is 0x01 (rule R68). -/
theorem opcode_eq_hlt_iff : i.opcode = 0x01 ↔ i = .hlt := by
  cases i with
  | hlt => exact iff_of_true rfl rfl
  | _ => exact iff_of_false (by dsimp only [Instr.opcode]; decide) (by simp)

/-- HLT's byte at `pc` is fetched as HLT and has no fault pending (rule R100). -/
theorem pendingFault_of_hlt (h : s.memRead s.pc = 0x01) : pendingFault s = none := by
  have hd : decode (fetch s) = .ok .hlt := by
    rw [fetch, h]
    exact decode_hlt _ _
  exact pendingFault_of_legal hd rfl

end Sys2Proof.Machine

open Sys2Proof.Machine in
/-- Settles O12: the fetched bytes are the three bytes at `pc`. -/
theorem stepRunsTheDecodedInstruction : Obligations.StepRunsTheDecodedInstruction :=
  fun _ _ => step_of_decode_ok

open Sys2Proof.Machine in
/-- Settles O13: the bytes in memory decode to the instruction, whatever the unused ones are. -/
theorem stepRunsTheEncodedInstruction : Obligations.StepRunsTheEncodedInstruction :=
  fun _ _ hrun hbytes => step_of_decode_ok hrun (decode_fetch_of_bytes hbytes)

open Sys2Proof Sys2Proof.Machine in
/-- Settles O14: the decoder rejects an opcode outside the map, and a Faulted core takes no step. -/
theorem unknownOpcodeTakesItsFault : Obligations.UnknownOpcodeTakesItsFault := fun s hrun hop =>
  have hd : decode (fetch s) = .error (.unknownOpcode (s.memRead s.pc)) := (decode_eq_error_iff (fetch s)).mpr hop
  ⟨_, step_of_decode_error hrun hd, unknownOpcode_taken s _, step_of_stopReason rfl⟩

open Sys2Proof.Machine in
/-- Settles O15: of the two ways that an instruction can answer, an illegal operand leaves the fault. -/
theorem firstIllegalOperandTakesItsFault : Obligations.FirstIllegalOperandTakesItsFault := by
  intro i s slot byte hillegal
  rcases exec_cases i s with ⟨slot', byte', hfirst, -, hexec⟩ | ⟨hlegal, -⟩
  · obtain ⟨rfl, rfl⟩ : slot'.code = slot ∧ byte' = byte := by simpa [hfirst] using hillegal
    exact ⟨_, hexec, illegalRegister_taken s i.opcode byte' slot'⟩
  · simp [hlegal] at hillegal

open Sys2Proof.Machine in
/-- Settles O16: of the two ways that an instruction can answer, legal operands leave the effect. -/
theorem legalOperandsCompleteWithoutFault : Obligations.LegalOperandsCompleteWithoutFault := by
  intro i s hwf
  rcases exec_cases i s with ⟨_, _, -, hnwf, -⟩ | ⟨-, -, t, hexec, heff⟩
  · simp [hnwf] at hwf
  · exact ⟨t, hexec, heff.fault_eq, heff.status_eq⟩

open Sys2Proof.Machine in
/-- Settles O17, by the two kinds of a Running core's step. -/
theorem pendingFaultDecidesTheStep : Obligations.PendingFaultDecidesTheStep := by
  intro s hrun
  cases runningStep hrun with
  | faults r hpending hstep =>
    refine ⟨fun r' hr' => ?_, fun hnone => ?_⟩
    · obtain rfl := Option.some.inj (hpending.symm.trans hr')
      exact hstep
    · simp [hpending] at hnone
  | completes i t hpending _ hstep heff =>
    refine ⟨fun r' hr' => ?_, fun _ => ⟨t, hstep, heff.status_ne_faulted hrun, heff.fault_eq⟩⟩
    simp [hpending] at hr'

open Sys2Proof.Machine in
/-- Settles O18: a step that answers a next state is a Running core's, and every other run state has its reason. -/
theorem stepsOnlyWhileRunning : Obligations.StepsOnlyWhileRunning := fun _ =>
  ⟨fun _ hstep => (step_cases hstep).1, fun hidle => step_of_stopReason (congrArg stopReason hidle),
    fun hhalted => step_of_stopReason (congrArg stopReason hhalted),
    fun hfaulted => step_of_stopReason (congrArg stopReason hfaulted)⟩

open Sys2Proof Sys2Proof.Machine in
/-- Settles O19, by the two kinds of a Running core's step: HLT has no fault pending, and of the instructions that complete
it alone changes the run state. -/
theorem onlyHltEndsARunCleanly : Obligations.OnlyHltEndsARunCleanly := by
  intro s t hst
  have hrun := (step_cases hst).1
  cases runningStep hrun with
  | faults r hpending hstep =>
    cases hstep.symm.trans hst
    have hop : s.memRead s.pc ≠ 0x01 := fun hop => by simp [pendingFault_of_hlt hop] at hpending
    simpa [hpending] using hop
  | completes i t' hpending hd hstep heff =>
    cases hstep.symm.trans hst
    have hop : s.memRead s.pc = 0x01 ↔ i = .hlt := by
      rw [← opcode_eq_hlt_iff, (decode_ok hd).1]
      rfl
    rw [heff.status_eq, hrun, hop]
    by_cases hhlt : i = .hlt
    · simp [hhlt, hpending]
    · simp [hhlt, hpending]
end

section
/-!
PROOFS. The frame of every instruction: where `pc` goes without the sets-pc bit, and which cells, registers and output
bytes an instruction can change (rules R24, R28, R43 and R182).
-/

namespace Sys2Proof.Machine

variable {s t : State} {i : Instr}

/-! ### The frame of an effect -/

/-- Without the sets-pc bit, `pc` moves by the instruction's length (rule R86). -/
theorem Effect.pc_of_plain (h : Effect i s t) (hplain : setsPc i.opcode = false) :
    t.pc = s.pc + BitVec.ofNat 8 (instructionLength i.opcode) := by
  rw [instructionLength, operandCount_opcode]
  have hcall : setsPc Opcode.call = true := by decide
  have hret : setsPc Opcode.ret = true := by decide
  have hjmp : setsPc Opcode.jmp = true := by decide
  cases h with
  | call => exact absurd (hcall.symm.trans hplain) (by decide)
  | ret => exact absurd (hret.symm.trans hplain) (by decide)
  | jmp => exact absurd (hjmp.symm.trans hplain) (by decide)
  | _ => rfl

/-- A cell that the instruction does not store to reads as before (rule R43). -/
theorem Effect.memRead_eq (h : Effect i s t) {c : Byte} (hc : c ∉ storeCells i s) : t.memRead c = s.memRead c := by
  cases h with
  | st _ ha =>
    rw [memRead_setPc, memRead_stAction, if_neg]
    simpa [storeCells, regIndex_of_names ha] using hc
  | push =>
    have hne : c ≠ s.sp - 1 := by simpa [storeCells] using hc
    rw [memRead_setPc, memRead_pushAction, if_neg hne]
  | call =>
    have hne : c ≠ s.sp - 1 := by simpa [storeCells] using hc
    rw [memRead_callAction, if_neg hne]
  | _ => rfl

theorem ne_of_not_mem_regIndex {a : Byte} {ra r : RegId} (ha : Names a ra) (hr : r ∉ (regIndex a).toList) :
    r ≠ ra := by
  rw [regIndex_of_names ha] at hr
  simpa using hr

/-- A register outside the table of written registers is as before (rule R24). -/
theorem Effect.readReg_eq (h : Effect i s t) {r : RegId} (hr : r ∉ writtenRegs i) : t.readReg r = s.readReg r := by
  cases h with
  | ldi _ imm ha => rw [readReg_setPc, readReg_ldiAction, if_neg (ne_of_not_mem_regIndex ha hr).symm]
  | add _ ha => exact readReg_aluAction_other s .add _ _ (ne_of_not_mem_regIndex ha hr)
  | sub _ ha => exact readReg_aluAction_other s .sub _ _ (ne_of_not_mem_regIndex ha hr)
  | mul _ ha => exact readReg_aluAction_other s .mul _ _ (ne_of_not_mem_regIndex ha hr)
  | and _ ha => exact readReg_aluAction_other s .and _ _ (ne_of_not_mem_regIndex ha hr)
  | or _ ha => exact readReg_aluAction_other s .or _ _ (ne_of_not_mem_regIndex ha hr)
  | pop _ ha =>
    have hsp : r ≠ 7 := List.ne_of_not_mem_cons hr
    have hne := ne_of_not_mem_regIndex ha (List.not_mem_of_not_mem_cons hr)
    rw [readReg_setPc, readReg_popAction, if_neg hsp.symm, if_neg hne.symm]
  | push =>
    have hsp : r ≠ 7 := by simpa [writtenRegs] using hr
    rw [readReg_setPc, readReg_pushAction, if_neg hsp.symm]
  | call =>
    have hsp : r ≠ 7 := by simpa [writtenRegs] using hr
    rw [readReg_callAction, if_neg hsp.symm]
  | ret =>
    have hsp : r ≠ 7 := by simpa [writtenRegs] using hr
    rw [readReg_retAction, if_neg hsp.symm]
  | _ => rfl

/-- What an instruction appends to the output stream (rule R182). -/
def emittedBy (i : Instr) (s : State) : List Byte :=
  match i with
  | .prn a => (regIndex a).toList.map s.readReg
  | _ => []

theorem Effect.output_append (h : Effect i s t) : t.output = s.output ++ emittedBy i s := by
  cases i with
  | hlt =>
    cases h
    exact (List.append_nil s.output).symm
  | prn =>
    cases h with
    | prn _ ha =>
      rw [emittedBy, regIndex_of_names ha]
      rfl
  | _ => exact (h.quiet nofun nofun).output.trans (List.append_nil s.output).symm

/-- No instruction but PRN emits (rule R182). -/
theorem emittedBy_of_ne_prn (s : State) (hprn : ∀ a, i ≠ .prn a) : emittedBy i s = [] := by
  cases i with
  | prn a => exact absurd rfl (hprn a)
  | _ => rfl

/-- The frame of every effect but HLT's, from the tables of what it writes, stores and emits. -/
theorem Effect.onlyChanges (h : Effect i s t) (hhlt : i ≠ .hlt) :
    OnlyChanges (writtenRegs i) (storeCells i s) (emittedBy i s) s t :=
  ⟨fun _ => h.readReg_eq, fun _ => h.memRead_eq, by rw [h.status_eq, if_neg hhlt], h.fault_eq, h.output_append⟩

/-! ### A store and the next fetch -/

/-- ST in a Running core: the fetched operands decide the store, wherever it goes (rules R81, R112). -/
theorem step_st {a b : Byte} {ra rb : RegId} (hrun : s.status = .running)
    (hfetch : fetch s = { op := Opcode.st, a := a, b := b }) (ha : Names a ra) (hb : Names b rb) :
    step s = .next ((stAction ra rb s).setPc (s.pc + 3)) := by
  have hd : decode (fetch s) = .ok (.st a b) := by
    rw [hfetch]
    exact roundTrip (.st a b) 0 0
  rw [step_of_decode_ok hrun hd, exec_st s ha hb]

/-- The fetch after an ST sees the stored byte in each of its cells that is the store's (rules R55, R207). -/
theorem fetch_stAction_setPc (ra rb : RegId) (p : Byte) :
    fetch ((stAction ra rb s).setPc p) =
      { op := if p = s.readReg ra then s.readReg rb else s.memRead p
        a := if p + 1 = s.readReg ra then s.readReg rb else s.memRead (p + 1)
        b := if p + 2 = s.readReg ra then s.readReg rb else s.memRead (p + 2) } := by
  simp only [fetch, setPc_pc, memRead_setPc, memRead_stAction]

end Sys2Proof.Machine

open Sys2Proof Sys2Proof.Machine in
/-- Settles O20: with legal operands `exec` has its effect, which moves `pc` by the length. -/
theorem plainInstructionsAdvanceByTheirLength : Obligations.PlainInstructionsAdvanceByTheirLength := by
  intro i s hwf hplain
  rcases exec_cases i s with ⟨_, _, -, hnwf, -⟩ | ⟨-, -, t, hexec, heff⟩
  · simp [hnwf] at hwf
  · refine ⟨t, hexec, ?_⟩
    rw [heff.pc_of_plain hplain, BitVec.toNat_add, BitVec.toNat_ofNat, Nat.add_mod_mod, instructionLength,
      Nat.add_assoc]

open Sys2Proof.Machine in
/-- Settles O21: a fault stores nowhere, and an effect only to the listed cell. -/
theorem onlyStoresChangeMemory : Obligations.OnlyStoresChangeMemory := by
  intro i s t h c hc
  rcases exec_cases i s with ⟨_, _, -, -, hexec⟩ | ⟨-, -, _, hexec, heff⟩
  · cases hexec.symm.trans h
    rfl
  · cases hexec.symm.trans h
    exact heff.memRead_eq hc

open Sys2Proof.Machine in
/-- Settles O22: a fault writes no register, and an effect only those of the table. -/
theorem onlyTabledRegistersChange : Obligations.OnlyTabledRegistersChange := by
  intro i s t h r hr
  rcases exec_cases i s with ⟨_, _, -, -, hexec⟩ | ⟨-, -, _, hexec, heff⟩
  · cases hexec.symm.trans h
    rfl
  · cases hexec.symm.trans h
    exact heff.readReg_eq hr

open Sys2Proof.Machine in
/-- Settles O23: PRN on a legal register appends its byte, and neither a fault nor another effect emits. -/
theorem onlyPrnEmits : Obligations.OnlyPrnEmits := by
  intro i s t h
  constructor
  · rintro a r rfl ha
    cases (exec_prn s ha).symm.trans h
    rfl
  · intro hprn
    rcases exec_cases i s with ⟨_, _, -, -, hexec⟩ | ⟨-, -, _, hexec, heff⟩
    · cases hexec.symm.trans h
      rfl
    · cases hexec.symm.trans h
      rw [heff.output_append, emittedBy_of_ne_prn s hprn, List.append_nil]

open Sys2Proof.Machine in
/-- Settles O24: the store is decided by the fetched operands, and the next fetch reads the memory that it leaves. -/
theorem storesAreSeenByTheNextFetchOnly : Obligations.StoresAreSeenByTheNextFetchOnly := by
  intro s a b ra rb hrun hfetch ha hb
  refine ⟨_, step_st hrun hfetch ha hb, ?_, ?_⟩
  · rw [memRead_setPc, memRead_stAction, if_pos rfl]
  · rw [fetch_stAction_setPc, BitVec.add_assoc, BitVec.add_assoc]
    rfl
end

section
/-!
PROOFS. The host's interactions: load, start, the reads, boot, and a word placed at `pc` (rules R184 and R200 to R205).
-/

namespace Sys2Proof.Machine

variable {s : State}

/-! ### Loading -/

/-- Copying an image changes memory alone (rule R201). -/
theorem copyBytes_frame (s : State) (k : Nat) (image : List Byte) :
    s.copyBytes k image = { s with mem := (s.copyBytes k image).mem } := by
  induction image generalizing s k with
  | nil => rfl
  | cons v rest ih => exact ih (s.memWrite (BitVec.ofNat 8 k) v) (k + 1)

theorem copyBytes_status (s : State) (k : Nat) (image : List Byte) : (s.copyBytes k image).status = s.status := by
  rw [copyBytes_frame]

theorem wf_copyBytes (h : s.mem.wf) (k : Nat) (image : List Byte) : (s.copyBytes k image).mem.wf := by
  induction image generalizing s k with
  | nil => exact h
  | cons v rest ih => exact ih (wf_memWrite h _ v) (k + 1)

/-- From cell `k` up, a cell holds the image's byte where the image has one (rule R201). -/
theorem memRead_copyBytes (s : State) {k : Nat} {image : List Byte} (h : k + image.length ≤ 256) (c : Byte) :
    (s.copyBytes k image).memRead c =
      if k ≤ c.toNat then image.getD (c.toNat - k) (s.memRead c) else s.memRead c := by
  induction image generalizing s k with
  | nil => simp [State.copyBytes]
  | cons v rest ih =>
    rw [List.length_cons] at h
    have hk : (BitVec.ofNat 8 k).toNat = k := by
      rw [BitVec.toNat_ofNat]
      omega
    have hc : c = BitVec.ofNat 8 k ↔ c.toNat = k := by rw [← BitVec.toNat_inj, hk]
    rw [State.copyBytes, ih _ (by omega), memRead_memWrite]
    simp only [hc]
    obtain hlt | heq | hgt := Nat.lt_trichotomy c.toNat k
    · rw [if_neg (by omega), if_neg (by omega), if_neg (by omega)]
    · rw [if_neg (by omega), if_pos heq, if_pos (by omega), heq, Nat.sub_self, List.getD_cons_zero]
    · obtain ⟨n, hn⟩ : ∃ n, c.toNat - k = n + 1 := ⟨c.toNat - k - 1, by omega⟩
      rw [if_pos (by omega), if_neg (by omega), if_pos (by omega), hn, List.getD_cons_succ,
        show c.toNat - (k + 1) = n by omega]

theorem loadAccepted_iff {image : List Byte} :
    loadAccepted s image = true ↔ s.status = .idle ∧ image.length ≤ 256 := by
  rw [loadAccepted, Bool.and_eq_true, decide_eq_true_iff, decide_eq_true_iff]
  rfl

theorem hostLoad_of_accepted {image : List Byte} (h : loadAccepted s image = true) :
    hostLoad image s = s.copyBytes 0 image := if_pos h

theorem hostAct_load_of_accepted {image : List Byte} (h : loadAccepted s image = true) :
    hostAct (.load image) s = (.accepted, s.copyBytes 0 image) := by
  simp only [hostAct, hostLoad, h, if_true]

theorem hostAct_load_of_not_accepted {image : List Byte} (h : ¬ loadAccepted s image = true) :
    hostAct (.load image) s = (.refused, s) := by
  simp only [hostAct, hostLoad, if_neg h]

/-! ### Starting -/

theorem hostStart_of_idle (h : s.status = .idle) : hostStart s = s.setStatus .running := if_pos h

theorem hostStart_of_not_idle (h : s.status ≠ .idle) : hostStart s = s := if_neg h

/-- Reset, load and start leave the reset state, Running, with the image in memory (rule R203). -/
theorem boot_eq {image : List Byte} (h : image.length ≤ 256) (s : State) :
    hostStart (hostLoad image (hostReset s)) = (State.reset.copyBytes 0 image).setStatus .running := by
  rw [hostReset, hostLoad_of_accepted (loadAccepted_iff.mpr ⟨rfl, h⟩)]
  apply hostStart_of_idle
  rw [copyBytes_frame]
  rfl

/-- The booted core fetches the image's first bytes (rules R37, R203). -/
theorem fetch_boot {image : List Byte} (h : image.length ≤ 256) :
    fetch ((State.reset.copyBytes 0 image).setStatus .running) = Fetched.ofBytes image := by
  have hpc : ((State.reset.copyBytes 0 image).setStatus .running).pc = 0 := by
    rw [copyBytes_frame]
    rfl
  have hread (c : Byte) : (State.reset.copyBytes 0 image).memRead c = image.getD c.toNat 0 := by
    rw [memRead_copyBytes _ (by omega), if_pos (Nat.zero_le _), Nat.sub_zero]
    rfl
  simp only [fetch, hpc, memRead_setStatus, hread]
  rfl

/-! ### A word placed at `pc` -/

/-- The next fetch reads the three bytes placed at `pc` (rule R81). -/
theorem fetch_placeFetched (s : State) (f : Fetched) : fetch (s.placeFetched f) = f := by
  have h01 : s.pc ≠ s.pc + 1 := by bv_omega
  have h02 : s.pc ≠ s.pc + 2 := by bv_omega
  have h12 : s.pc + 1 ≠ s.pc + 2 := by bv_omega
  simp only [fetch, State.placeFetched, memWrite_pc, memRead_memWrite, if_neg h01, if_neg h02, if_neg h12, if_true]

theorem decode_of_decodeTableWord {nbits w : Nat} {i : Instr} (h : decodeTableWord nbits w = some i) :
    decode (tableBytes nbits w) = .ok i := by
  unfold decodeTableWord at h
  split at h
  · cases h
    assumption
  · cases h

/-- An interaction other than reset leaves a core that is out of Idle as it is (rules R185, R204). -/
theorem hostAct_of_not_idle (h : s.status ≠ .idle) {act : HostAction} (hact : act ≠ .reset) :
    (hostAct act s).2 = s := by
  cases act with
  | reset => exact absurd rfl hact
  | load image => rw [hostAct_load_of_not_accepted fun hacc => h (loadAccepted_iff.mp hacc).1]
  | start => exact hostStart_of_not_idle h
  | output => rfl
  | inspect => rfl
  | status => rfl

end Sys2Proof.Machine

open Sys2Proof.Machine in
/-- Settles O11: the reset state is written out, and no cell is listed in its memory. -/
theorem resetLeavesTheTabledValues : Obligations.ResetLeavesTheTabledValues :=
  ⟨fun _ => rfl, by decide, rfl, rfl, rfl, rfl, rfl⟩

open Sys2Proof.Machine in
/-- Settles O54: an accepted image is copied from cell 0 up, which changes memory alone, and a refused one is not. -/
theorem loadCopiesTheImageOrIsRefused : Obligations.LoadCopiesTheImageOrIsRefused := by
  intro image s
  refine ⟨fun hidle hlen => ?_, fun hbad => ?_⟩
  · have hread := memRead_copyBytes s (k := 0) (image := image) (by omega)
    simp only [Nat.zero_le, if_true, Nat.sub_zero] at hread
    rw [hostAct_load_of_accepted (loadAccepted_iff.mpr ⟨hidle, hlen⟩)]
    refine ⟨rfl, hread, ?_⟩
    rw [copyBytes_frame]
    exact ⟨fun _ => rfl, rfl, rfl, rfl, rfl⟩
  · refine hostAct_load_of_not_accepted fun hacc => ?_
    obtain ⟨hidle, hlen⟩ := loadAccepted_iff.mp hacc
    rcases hbad with hne | hlong
    · exact hne hidle
    · omega

open Sys2Proof.Machine in
/-- Settles O55, by the two cases of start. -/
theorem startOnlyLeavesIdle : Obligations.StartOnlyLeavesIdle := fun _ =>
  ⟨hostStart_of_idle, hostStart_of_not_idle⟩

open Sys2Proof.Machine in
/-- Settles O56: outside Idle a load is refused and a start has no effect. -/
theorem onlyResetChangesAStartedCore : Obligations.OnlyResetChangesAStartedCore := fun _ _ =>
  ⟨fun hs hact => hostAct_of_not_idle hs hact, rfl⟩

open Sys2Proof Sys2Proof.Machine in
/-- Settles O57: the booted core is the reset state with the image in memory, so its first fetch reads the image; from an
empty image it reads the byte 0x00, which is no opcode. -/
theorem bootRunsTheImageFromAddressZero : Obligations.BootRunsTheImageFromAddressZero := by
  refine ⟨fun image s hlen => ?_, fun s => ?_⟩
  · have hfetch := fetch_boot hlen
    have hframe := copyBytes_frame State.reset 0 image
    simp only [boot_eq hlen s]
    refine ⟨rfl, ?_, ?_, hfetch, fun i hd => step_of_decode_ok rfl (hfetch ▸ hd)⟩
    · rw [hframe]
      rfl
    · rw [hframe]
      rfl
  · rw [boot_eq (Nat.zero_le _) s]
    exact ⟨_, step_of_decode_error rfl (by rw [fetch_boot (Nat.zero_le _)]; rfl), rfl, rfl⟩

open Sys2Proof.Machine in
/-- Settles O58: each reply is read off the state, and the run state's code off the run state. -/
theorem hostReadsChangeNothing : Obligations.HostReadsChangeNothing := by
  refine fun s => ⟨rfl, rfl, rfl, ?_⟩
  cases h : s.status <;> simp only [hostAct, h] <;> rfl

open Sys2Proof Sys2Proof.Machine in
/-- Settles O59: the fetch at `pc` reads the placed word back. -/
theorem placedWordIsRunByTheNextStep : Obligations.PlacedWordIsRunByTheNextStep := fun s nbits w _ hword =>
  step_of_decode_ok rfl <| (congrArg decode (fetch_placeFetched s (tableBytes nbits w))).trans
    (decode_of_decodeTableWord hword)
end

section
/-!
PROOFS. The invariant of the core at reset, under every step and under every interaction of the host (rules R33, R88 and
R175).
-/

namespace Sys2Proof.Machine

variable {s t : State}

theorem inv_reset : State.reset.Inv := ⟨wf_nil, nofun, fun _ => rfl⟩

/-- Of a core that is not Faulted the invariant says that memory is canonical and the record empty. -/
theorem inv_iff_of_not_faulted (h : s.status ≠ .faulted) : s.Inv ↔ s.mem.wf ∧ s.fault = FaultRecord.none :=
  ⟨fun ⟨hwf, _, hclear⟩ => ⟨hwf, hclear h⟩, fun ⟨hwf, hclear⟩ => ⟨hwf, fun hf => absurd hf h, fun _ => hclear⟩⟩

/-- Taking the pending fault leaves the core Faulted with that record, and the same instruction at `pc` (rule R175). -/
theorem inv_of_faults {r : FaultRecord} (h : s.mem.wf) (hpending : pendingFault s = some r) :
    State.Inv { s with status := .faulted, fault := r } :=
  ⟨h, fun _ => hpending, fun hne => absurd rfl hne⟩

theorem inv_step (h : s.Inv) (hst : step s = .next t) : t.Inv := by
  have hrun := (step_cases hst).1
  obtain ⟨hwf, hclear⟩ := (inv_iff_of_not_faulted (by simp [hrun])).mp h
  cases runningStep hrun with
  | faults r hpending hstep =>
    cases hstep.symm.trans hst
    exact inv_of_faults hwf hpending
  | completes i t' _ _ hstep heff =>
    cases hstep.symm.trans hst
    exact (inv_iff_of_not_faulted (heff.status_ne_faulted hrun)).mpr ⟨heff.wf hwf, heff.fault_eq.trans hclear⟩

/-! ### The host's interactions -/

theorem inv_hostLoad (h : s.Inv) (image : List Byte) : (hostLoad image s).Inv := by
  by_cases hacc : loadAccepted s image = true
  · have hidle : s.status ≠ .faulted := by simp [(loadAccepted_iff.mp hacc).1]
    obtain ⟨hwf, hclear⟩ := (inv_iff_of_not_faulted hidle).mp h
    rw [hostLoad_of_accepted hacc]
    exact (inv_iff_of_not_faulted (copyBytes_status s 0 image ▸ hidle)).mpr
      ⟨wf_copyBytes hwf 0 image, (copyBytes_fault s 0 image).trans hclear⟩
  · rwa [hostLoad, if_neg hacc]

theorem inv_hostStart (h : s.Inv) : (hostStart s).Inv := by
  by_cases hidle : s.status = .idle
  · obtain ⟨hwf, hclear⟩ := (inv_iff_of_not_faulted (by simp [hidle])).mp h
    rw [hostStart_of_idle hidle]
    exact (inv_iff_of_not_faulted (by simp)).mpr ⟨hwf, hclear⟩
  · rwa [hostStart_of_not_idle hidle]

theorem inv_hostAct (h : s.Inv) (act : HostAction) : (hostAct act s).2.Inv := by
  cases act with
  | reset => exact inv_reset
  | load image => exact inv_hostLoad h image
  | start => exact inv_hostStart h
  | output => exact h
  | inspect => exact h
  | status => exact h

theorem Reachable.inv (h : Reachable s) : s.Inv := by
  induction h with
  | reset => exact inv_reset
  | step _ hstep ih => exact inv_step ih hstep
  | host act _ ih => exact inv_hostAct ih act

end Sys2Proof.Machine

open Sys2Proof.Machine in
/-- Settles O26: no cell is listed after reset, and the core is Idle with an empty record. -/
theorem resetMeetsTheInvariant : Obligations.ResetMeetsTheInvariant := inv_reset

open Sys2Proof.Machine in
/-- Settles O27, by the two kinds of a Running core's step: a fault writes neither `pc` nor memory, so it is still the
pending one, and an effect keeps the empty record and the canonical form. -/
theorem everyStepKeepsTheInvariant : Obligations.EveryStepKeepsTheInvariant := fun _ _ => inv_step

open Sys2Proof.Machine in
/-- Settles O28: load and start act in Idle only, where the record is empty and stays so. -/
theorem everyHostActionKeepsTheInvariant : Obligations.EveryHostActionKeepsTheInvariant := fun act _ h =>
  inv_hostAct h act

open Sys2Proof.Machine in
/-- Settles O29, by induction on the way to the state. -/
theorem reachableStatesMeetTheInvariant : Obligations.ReachableStatesMeetTheInvariant := fun _ => Reachable.inv
end

section
/-!
PROOFS. What a program does depends on memory, registers and `pc` alone: no instruction reads the fault record or the
output stream (rules R20 and R31).
-/

namespace Sys2Proof.Machine

variable {s s' t : State} {i : Instr}

/-- The state with another fault record and another output stream: the same to the program. -/
def State.withHostView (s : State) (record : FaultRecord) (stream : List Byte) : State :=
  { s with fault := record, output := stream }

/-- States with the same visible state and the same run state differ in what the host reads only. -/
theorem SameVisible.eq_withHostView (h : SameVisible s s') (hstatus : s'.status = s.status) :
    s' = s.withHostView s'.fault s'.output := by
  obtain ⟨hmem, hregs, hpc⟩ := h
  rw [State.withHostView, ← hmem, ← hregs, ← hpc, ← hstatus]

theorem sameVisible_withHostView (s : State) (record record' : FaultRecord) (stream stream' : List Byte) :
    SameVisible (s.withHostView record stream) (s.withHostView record' stream') := ⟨rfl, rfl, rfl⟩

/-- An effect is the same under another fault record and another output stream, and emits the same bytes. -/
theorem Effect.exec_withHostView (h : Effect i s t) (record : FaultRecord) (stream : List Byte) :
    exec i (s.withHostView record stream) = .next (t.withHostView record (stream ++ emittedBy i s)) := by
  have hsilent : stream ++ [] = stream := List.append_nil stream
  cases h with
  | prn _ ha =>
    rw [exec_prn _ ha, emittedBy, regIndex_of_names ha]
    rfl
  | hlt => exact hsilent.symm ▸ exec_hlt _
  | ldi _ imm ha => exact hsilent.symm ▸ exec_ldi _ ha imm
  | st _ ha hb => exact hsilent.symm ▸ exec_st _ ha hb
  | add _ ha hb => exact hsilent.symm ▸ exec_add _ ha hb
  | sub _ ha hb => exact hsilent.symm ▸ exec_sub _ ha hb
  | mul _ ha hb => exact hsilent.symm ▸ exec_mul _ ha hb
  | and _ ha hb => exact hsilent.symm ▸ exec_and _ ha hb
  | or _ ha hb => exact hsilent.symm ▸ exec_or _ ha hb
  | push _ ha => exact hsilent.symm ▸ exec_push _ ha
  | pop _ ha => exact hsilent.symm ▸ exec_pop _ ha
  | call _ ha => exact hsilent.symm ▸ exec_call _ ha
  | ret => exact hsilent.symm ▸ exec_ret _
  | jmp _ ha => exact hsilent.symm ▸ exec_jmp _ ha

/-- The pending fault reads memory and `pc` only (rules R31, R170). -/
theorem pendingFault_withHostView (s : State) (record : FaultRecord) (stream : List Byte) :
    pendingFault (s.withHostView record stream) = pendingFault s := rfl

/-- The step of a Running core under another fault record and another output stream: the same fault, or the same effect
with the same bytes emitted. -/
theorem step_withHostView (hrun : s.status = .running) (hst : step s = .next t) (record : FaultRecord)
    (stream : List Byte) :
    (t.status = .faulted ∧ t.output = s.output ∧
      step (s.withHostView record stream) = .next (t.withHostView t.fault stream)) ∨
    (t.status ≠ .faulted ∧ ∃ emitted, t.output = s.output ++ emitted ∧
      step (s.withHostView record stream) = .next (t.withHostView record (stream ++ emitted))) := by
  have hrun' : (s.withHostView record stream).status = .running := hrun
  cases runningStep hrun with
  | faults r hpending hstep =>
    cases hstep.symm.trans hst
    have hpending' := (pendingFault_withHostView s record stream).trans hpending
    exact .inl ⟨rfl, rfl, (pendingFaultDecidesTheStep _ hrun').1 r hpending'⟩
  | completes i t' hpending hd hstep heff =>
    cases hstep.symm.trans hst
    exact .inr ⟨heff.status_ne_faulted hrun, emittedBy i s, heff.output_append,
      (step_of_decode_ok hrun' hd).trans (heff.exec_withHostView record stream)⟩

end Sys2Proof.Machine

open Sys2Proof.Machine in
/-- Settles O31: the second state is the first one with another fault record and another output stream, which neither the
pending fault nor an effect reads. -/
theorem noInstructionReadsOutputOrFaultRecord : Obligations.NoInstructionReadsOutputOrFaultRecord := by
  intro s s' t hvisible hrun hrun' hst
  rw [hvisible.eq_withHostView (hrun'.trans hrun.symm)]
  have hframe := sameVisible_withHostView t t.fault
  rcases step_withHostView hrun hst s'.fault s'.output with ⟨-, hsilent, hstep⟩ | ⟨hcompleted, emitted, hemits, hstep⟩
  · refine ⟨_, hstep, hframe _ t.output _, rfl, ⟨[], ?_, (List.append_nil _).symm⟩, fun _ => rfl⟩
    exact hsilent.trans (List.append_nil _).symm
  · exact ⟨_, hstep, hframe _ t.output _, rfl, ⟨emitted, hemits, rfl⟩, fun hfaulted => absurd hfaulted hcompleted⟩
end

section
/-!
PROOFS. The rule of each instruction with register operands, and of RET: its bytes, its effect and its fault (rules R102,
R110, R112, R123 to R127, R141, R142 and R151 to R153).
-/

namespace Sys2Proof.Machine

variable {s : State}

/-! ### What the rules of a format have in common -/

/-- An instruction of format F1R has its rule when it has the rule's bytes and, on a legal register, the rule's effect. -/
theorem oneRegisterRule_of {op : Byte} {pcIsSet : Bool} {mk : Byte → Instr} {action : RegId → State → State}
    {effect : RegId → State → State → Prop} (hcount : operandCount op = 1) (hsets : setsPc op = pcIsSet)
    (hbytes : ∀ a, encode (mk a) = [op, a]) (hexec : ∀ a s, exec (mk a) s = withReg (mk a) a s action)
    (heffect : ∀ (s : State) {a : Byte} {ra : RegId}, Names a ra → ∃ t, exec (mk a) s = .next t ∧ effect ra s t) :
    OneRegisterRule op pcIsSet mk effect := by
  refine ⟨hcount, hsets, fun a s => ⟨hbytes a, fun unused => ?_, fun ra => heffect s, fun hge => ?_⟩⟩
  · have hdecode := decode_ofBytes_encode (mk a) [unused]
    rwa [hbytes] at hdecode
  · obtain rfl : (mk a).opcode = op := (List.cons.inj (hbytes a)).1
    exact ⟨_, (hexec a s).trans (withReg_of_ge hge _ _ _), illegalRegister_taken s _ a .a⟩

/-- An instruction of format F2RR has its rule when it has the rule's bytes and its action the rule's effect. -/
theorem twoRegisterRule_of {op : Byte} {mk : Byte → Byte → Instr} {action : RegId → RegId → State → State}
    {effect : RegId → RegId → State → State → Prop} (hcount : operandCount op = 2) (hsets : setsPc op = false)
    (hbytes : ∀ a b, encode (mk a b) = [op, a, b])
    (hexec : ∀ a b s, exec (mk a b) s = withTwoRegs (mk a b) a b s action)
    (hlegal : ∀ (s : State) {a b : Byte} {ra rb : RegId}, Names a ra → Names b rb →
      exec (mk a b) s = .next ((action ra rb s).setPc (s.pc + 3)))
    (heffect : ∀ ra rb s, effect ra rb s ((action ra rb s).setPc (s.pc + 3))) :
    TwoRegisterRule op mk effect := by
  have hop (a b : Byte) : (mk a b).opcode = op := (List.cons.inj (hbytes a b)).1
  refine ⟨hcount, hsets, fun a b s => ⟨hbytes a b, ?_, fun ra rb ha hb => ?_, fun hge => ?_, fun hlt hge => ?_⟩⟩
  · have hdecode := decode_ofBytes_encode (mk a b) []
    rwa [hbytes] at hdecode
  · exact ⟨_, hlegal s ha hb, rfl, heffect ra rb s⟩
  · rw [← hop a b]
    exact ⟨_, (hexec a b s).trans (withTwoRegs_of_ge_left hge _ _ _ _), illegalRegister_taken s _ a .a⟩
  · rw [← hop a b]
    exact ⟨_, (hexec a b s).trans (withTwoRegs_of_ge_right hlt hge _ _ _), illegalRegister_taken s _ b .b⟩

/-! ### The frames -/

section
variable {a b : Byte} {ra rb : RegId}

theorem onlyChanges_prn (s : State) (ha : Names a ra) :
    OnlyChanges [] [] [s.readReg ra] s ((prnAction ra s).setPc (s.pc + 2)) := by
  simpa [writtenRegs, storeCells, emittedBy, regIndex_of_names ha] using (Effect.prn s ha).onlyChanges nofun

theorem onlyChanges_ldi (s : State) (ha : Names a ra) (imm : Byte) :
    OnlyChanges [ra] [] [] s ((ldiAction imm ra s).setPc (s.pc + 3)) := by
  simpa [writtenRegs, storeCells, emittedBy, regIndex_of_names ha] using (Effect.ldi s imm ha).onlyChanges nofun

theorem onlyChanges_push (s : State) (ha : Names a ra) :
    OnlyChanges [7] [s.sp - 1] [] s ((pushAction ra s).setPc (s.pc + 2)) := by
  simpa [writtenRegs, storeCells, emittedBy] using (Effect.push s ha).onlyChanges nofun

theorem onlyChanges_pop (s : State) (ha : Names a ra) :
    OnlyChanges [7, ra] [] [] s ((popAction ra s).setPc (s.pc + 2)) := by
  simpa [writtenRegs, storeCells, emittedBy, regIndex_of_names ha] using (Effect.pop s ha).onlyChanges nofun

theorem onlyChanges_call (s : State) (ha : Names a ra) :
    OnlyChanges [7] [s.sp - 1] [] s (callAction 2 ra s) := by
  simpa [writtenRegs, storeCells, emittedBy] using (Effect.call s ha).onlyChanges nofun

theorem onlyChanges_ret (s : State) : OnlyChanges [7] [] [] s (retAction s) :=
  (Effect.ret s).onlyChanges nofun

theorem onlyChanges_jmp (s : State) (ha : Names a ra) : OnlyChanges [] [] [] s (jmpAction ra s) :=
  (Effect.jmp s ha).onlyChanges nofun

end

theorem onlyChanges_of_quiet {t : State} {regs : List RegId} {cells : List Byte} (h : Quiet s t)
    (hregs : ∀ r, r ∉ regs → t.readReg r = s.readReg r) (hcells : ∀ c, c ∉ cells → t.memRead c = s.memRead c) :
    OnlyChanges regs cells [] s t :=
  ⟨hregs, hcells, h.status, h.fault, by rw [h.output, List.append_nil]⟩

theorem onlyChanges_stAction (ra rb : RegId) (s : State) (p : Byte) :
    OnlyChanges [] [s.readReg ra] [] s ((stAction ra rb s).setPc p) :=
  onlyChanges_of_quiet (quiet_trans (quiet_stAction s ra rb) (quiet_setPc _ p)) (fun _ _ => rfl) fun c hc => by
    rw [memRead_setPc, memRead_stAction, if_neg (List.ne_of_not_mem_cons hc)]

theorem onlyChanges_aluAction (op : AluOp) (ra rb : RegId) (s : State) (p : Byte) :
    OnlyChanges [ra] [] [] s ((aluAction op ra rb s).setPc p) :=
  onlyChanges_of_quiet (quiet_trans (quiet_aluAction s op ra rb) (quiet_setPc _ p))
    (fun _ hr => readReg_aluAction_other s op ra rb (List.ne_of_not_mem_cons hr)) fun _ _ => rfl

/-! ### The ALU's results -/

/-- The result is the exact integer result, reduced modulo 256 (rule R121). -/
theorem result_toNat (op : AluOp) (x y : Byte) : ((op.result x y).toNat : Int) = op.exact x y % 256 := by
  rw [AluOp.result, BitVec.toNat_ofInt]
  exact Int.toNat_of_nonneg (Int.emod_nonneg _ (by decide))

theorem readReg_alu_setPc (op : AluOp) (ra rb : RegId) (s : State) (p : Byte) :
    ((aluAction op ra rb s).setPc p).readReg ra = op.result (s.readReg ra) (s.readReg rb) :=
  readReg_aluAction_same s op ra rb

end Sys2Proof.Machine

open Sys2Proof Sys2Proof.Machine in
/-- Settles O33: PRN's effect appends the byte, and the host shows it at the end of the numbers before. -/
theorem prnEmitsItsRegister : Obligations.PrnEmitsItsRegister :=
  oneRegisterRule_of Laws.OpcodeShape.count_prn (by decide) (fun _ => rfl) (fun _ _ => rfl) fun s _ _ ha =>
    ⟨_, exec_prn s ha, rfl, onlyChanges_prn s ha, List.map_append⟩

open Sys2Proof Sys2Proof.Machine in
/-- Settles O34: LDI checks operand a alone, and its effect writes the immediate. -/
theorem ldiLoadsItsImmediate : Obligations.LdiLoadsItsImmediate := by
  refine ⟨Laws.OpcodeShape.count_ldi, by decide, fun a imm s => ⟨rfl, roundTrip (.ldi a imm) 0 0, fun ra ha => ?_,
    fun hge => ?_⟩⟩
  · exact ⟨_, exec_ldi s ha imm, readReg_writeReg_same s ra imm, rfl, onlyChanges_ldi s ha imm⟩
  · exact ⟨_, withReg_of_ge hge _ _ _, illegalRegister_taken s _ a .a⟩

open Sys2Proof Sys2Proof.Machine in
/-- Settles O36: ST's action writes the one cell. -/
theorem stStoresAtTheAddressInItsFirstRegister : Obligations.StStoresAtTheAddressInItsFirstRegister :=
  twoRegisterRule_of Laws.OpcodeShape.count_st (by decide) (fun _ _ => rfl) (fun _ _ _ => rfl) exec_st
    fun ra rb s => ⟨memRead_memWrite_same s _ _, onlyChanges_stAction ra rb s _⟩

open Sys2Proof Sys2Proof.Machine in
/-- Settles O37: the reduced result of ADD is the sum modulo 256. -/
theorem addWritesTheSum : Obligations.AddWritesTheSum := by
  refine twoRegisterRule_of Laws.OpcodeShape.count_add (by decide) (fun _ _ => rfl) (fun _ _ _ => rfl) exec_add
    fun ra rb s => ⟨?_, onlyChanges_aluAction .add ra rb s _⟩
  rw [readReg_alu_setPc, result_add]
  exact BitVec.toNat_add _ _

open Sys2Proof Sys2Proof.Machine in
/-- Settles O38: the reduced result of SUB is the integer difference modulo 256. -/
theorem subWritesTheDifference : Obligations.SubWritesTheDifference := by
  refine twoRegisterRule_of Laws.OpcodeShape.count_sub (by decide) (fun _ _ => rfl) (fun _ _ _ => rfl) exec_sub
    fun ra rb s => ⟨?_, onlyChanges_aluAction .sub ra rb s _⟩
  rw [readReg_alu_setPc]
  exact result_toNat .sub (s.readReg ra) (s.readReg rb)

open Sys2Proof Sys2Proof.Machine in
/-- Settles O39: the reduced result of MUL is the product modulo 256. -/
theorem mulWritesTheLowProduct : Obligations.MulWritesTheLowProduct := by
  refine twoRegisterRule_of Laws.OpcodeShape.count_mul (by decide) (fun _ _ => rfl) (fun _ _ _ => rfl) exec_mul
    fun ra rb s => ⟨?_, onlyChanges_aluAction .mul ra rb s _⟩
  rw [readReg_alu_setPc, result_mul]
  exact BitVec.toNat_mul _ _

open Sys2Proof Sys2Proof.Machine in
/-- Settles O40: the result of AND is a byte already, and each of its bits is the conjunction of the operands' bits. -/
theorem andWritesTheBitwiseAnd : Obligations.AndWritesTheBitwiseAnd := by
  refine twoRegisterRule_of Laws.OpcodeShape.count_and (by decide) (fun _ _ => rfl) (fun _ _ _ => rfl) exec_and
    fun ra rb s => ⟨fun k _ => ?_, onlyChanges_aluAction .and ra rb s _⟩
  rw [readReg_alu_setPc, result_and, BitVec.getLsbD_and, Bool.and_eq_true]

open Sys2Proof Sys2Proof.Machine in
/-- Settles O41: the result of OR is a byte already, and each of its bits is the disjunction of the operands' bits. -/
theorem orWritesTheBitwiseOr : Obligations.OrWritesTheBitwiseOr := by
  refine twoRegisterRule_of Laws.OpcodeShape.count_or (by decide) (fun _ _ => rfl) (fun _ _ _ => rfl) exec_or
    fun ra rb s => ⟨fun k _ => ?_, onlyChanges_aluAction .or ra rb s _⟩
  rw [readReg_alu_setPc, result_or, BitVec.getLsbD_or, Bool.or_eq_true]

open Sys2Proof.Machine in
/-- Settles O43: the three results are the operations of 8-bit vectors, whose signed value is the balanced remainder. -/
theorem aluLowByteIgnoresSignedness : Obligations.AluLowByteIgnoresSignedness := fun x y =>
  ⟨(congrArg BitVec.toInt (result_add x y)).trans (BitVec.toInt_add x y),
    (congrArg BitVec.toInt (result_sub x y)).trans (BitVec.toInt_sub),
    (congrArg BitVec.toInt (result_mul x y)).trans (BitVec.toInt_mul x y)⟩

open Sys2Proof Sys2Proof.Machine in
/-- Settles O44: the store reads its register after the decrement. -/
theorem pushStoresBelowTheStackPointer : Obligations.PushStoresBelowTheStackPointer := by
  refine oneRegisterRule_of Laws.OpcodeShape.count_push (by decide) (fun _ => rfl) (fun _ _ => rfl) fun s _ ra ha =>
    ⟨_, exec_push s ha, rfl, readReg_pushAction s ra 7, ?_, onlyChanges_push s ha⟩
  rw [memRead_setPc, memRead_pushAction, if_pos rfl]
  simp only [eq_comm (a := (7 : RegId))]

open Sys2Proof Sys2Proof.Machine in
/-- Settles O45: the increment comes after the load, so it sees the loaded byte exactly when the register is R7. -/
theorem popLoadsFromTheStackPointer : Obligations.PopLoadsFromTheStackPointer := by
  refine oneRegisterRule_of Laws.OpcodeShape.count_pop (by decide) (fun _ => rfl) (fun _ _ => rfl) fun s _ ra ha =>
    ⟨_, exec_pop s ha, rfl, fun hne => ⟨?_, ?_⟩, fun heq => ?_, onlyChanges_pop s ha⟩
  · rw [readReg_setPc, readReg_popAction, if_neg hne.symm, if_pos rfl]
  · rw [sp_eq_readReg, readReg_setPc, readReg_popAction, if_pos rfl, if_neg hne]
  · rw [sp_eq_readReg, readReg_setPc, readReg_popAction, if_pos rfl, if_pos heq]

open Sys2Proof Sys2Proof.Machine in
/-- Settles O49: the target is read after the decrement, and the return address is two bytes past the CALL. -/
theorem callPushesTheReturnAddress : Obligations.CallPushesTheReturnAddress := by
  refine oneRegisterRule_of Laws.OpcodeShape.count_call (by decide) (fun _ => rfl) (fun _ _ => rfl) fun s _ ra ha =>
    ⟨_, exec_call s ha, readReg_callAction s 2 ra 7, ?_, ?_, onlyChanges_call s ha⟩
  · rw [memRead_callAction, if_pos rfl]
  · rw [callAction_pc]
    simp only [eq_comm (a := (7 : RegId))]

open Sys2Proof Sys2Proof.Machine in
/-- Settles O50: RET has no operand to check, and its effect is the load of `pc` and then the increment. -/
theorem retPopsTheProgramCounter : Obligations.RetPopsTheProgramCounter :=
  ⟨rfl, Laws.OpcodeShape.count_ret, by decide, roundTrip .ret, fun s =>
    ⟨_, exec_ret s, retAction_pc s, readReg_retAction s 7, onlyChanges_ret s⟩⟩

open Sys2Proof Sys2Proof.Machine in
/-- Settles O51: JMP's action writes `pc` alone. -/
theorem jmpGoesToItsRegister : Obligations.JmpGoesToItsRegister :=
  oneRegisterRule_of Laws.OpcodeShape.count_jmp (by decide) (fun _ => rfl) (fun _ _ => rfl) fun s _ _ ha =>
    ⟨_, exec_jmp s ha, rfl, onlyChanges_jmp s ha⟩
end

section
/-!
PROOFS. Instructions one after the other: LDI then PRN, PUSH then POP, many PUSHes, CALL then RET, and a JMP to itself
(rules R110, R143, R144, R153 and R155).
-/

namespace Sys2Proof.Machine

variable {s t : State}

theorem execAll_cons {i : Instr} {rest : List Instr} (h : exec i s = .next t) :
    execAll (i :: rest) s = execAll rest t := by
  simp only [execAll, h]

theorem execAll_pair {i j : Instr} {u : State} (hi : exec i s = .next t) (hj : exec j t = .next u) :
    execAll [i, j] s = some u := by
  rw [execAll_cons hi, execAll_cons hj]
  rfl

/-! ### PUSH then POP -/

/-- The byte that PUSH stores: for R7 the decremented stack pointer (rule R141, decision D15). -/
def pushedByte (ra : RegId) (s : State) : Byte := if ra = 7 then s.sp - 1 else s.readReg ra

/-- The state after PUSH of `ra`, its advance included. -/
def afterPush (ra : RegId) (s : State) : State := (pushAction ra s).setPc (s.pc + 2)

/-- The state after PUSH of `ra` and POP into `rc`, their advances included. -/
def afterPushPop (ra rc : RegId) (s : State) : State :=
  (popAction rc (afterPush ra s)).setPc ((afterPush ra s).pc + 2)

section
variable {a c : Byte} {ra rc : RegId}

theorem execAll_push_pop (s : State) (ha : Names a ra) (hc : Names c rc) :
    execAll [.push a, .pop c] s = some (afterPushPop ra rc s) :=
  execAll_pair (exec_push s ha) (exec_pop (afterPush ra s) hc)

variable (s) (ra rc)

theorem readReg_afterPush (r : RegId) : (afterPush ra s).readReg r = if 7 = r then s.sp - 1 else s.readReg r :=
  readReg_pushAction s ra r

theorem sp_afterPush : (afterPush ra s).sp = s.sp - 1 := readReg_afterPush s ra 7

theorem memRead_afterPush (cell : Byte) :
    (afterPush ra s).memRead cell = if cell = s.sp - 1 then pushedByte ra s else s.memRead cell := by
  simp only [afterPush, memRead_setPc, memRead_pushAction, pushedByte, eq_comm (a := (7 : RegId))]

/-- The POP finds the pushed byte, and its increment undoes the PUSH's decrement unless it loads R7. -/
theorem readReg_afterPushPop (r : RegId) :
    (afterPushPop ra rc s).readReg r =
      if 7 = r then (if rc = 7 then pushedByte ra s + 1 else s.sp)
      else if rc = r then pushedByte ra s else s.readReg r := by
  have hload : (afterPush ra s).memRead (afterPush ra s).sp = pushedByte ra s := by
    rw [memRead_afterPush, sp_afterPush, if_pos rfl]
  rw [afterPushPop, readReg_setPc, readReg_popAction, hload, sp_afterPush, readReg_afterPush]
  split
  · split
    · rfl
    · exact BitVec.sub_add_cancel _ _
  · rfl

theorem memRead_afterPushPop (cell : Byte) :
    (afterPushPop ra rc s).memRead cell = if cell = s.sp - 1 then pushedByte ra s else s.memRead cell :=
  memRead_afterPush s ra cell

theorem quiet_afterPushPop : Quiet s (afterPushPop ra rc s) :=
  quiet_trans (quiet_trans (quiet_pushAction s ra) (quiet_setPc _ _))
    (quiet_trans (quiet_popAction (afterPush ra s) rc) (quiet_setPc _ _))

/-- PUSH then POP change the cell below the stack pointer, and of the registers the popped one and `sp` at most. -/
theorem onlyChanges_afterPushPop {regs : List RegId}
    (hregs : ∀ r, r ∉ regs → (afterPushPop ra rc s).readReg r = s.readReg r) :
    OnlyChanges regs [s.sp - 1] [] s (afterPushPop ra rc s) :=
  onlyChanges_of_quiet (quiet_afterPushPop s ra rc) hregs fun cell hcell => by
    rw [memRead_afterPushPop, if_neg (List.ne_of_not_mem_cons hcell)]

/-- PUSH then POP of one register restores every register, R7 included (rule R144). -/
theorem readReg_afterPushPop_same (r : RegId) : (afterPushPop ra ra s).readReg r = s.readReg r := by
  rw [readReg_afterPushPop]
  by_cases h7 : 7 = r
  · subst h7
    by_cases hra : ra = 7
    · rw [if_pos rfl, if_pos hra, pushedByte, if_pos hra]
      exact BitVec.sub_add_cancel _ _
    · rw [if_pos rfl, if_neg hra]
      rfl
  · rw [if_neg h7]
    split
    · rename_i hra
      subst hra
      rw [pushedByte, if_neg (Ne.symm h7)]
    · rfl

theorem readReg_afterPushPop_other {r : RegId} (hr : r ∉ [7, rc]) :
    (afterPushPop ra rc s).readReg r = s.readReg r := by
  have hne : r ≠ rc := List.ne_of_not_mem_cons (List.not_mem_of_not_mem_cons hr)
  rw [readReg_afterPushPop, if_neg (List.ne_of_not_mem_cons hr).symm, if_neg hne.symm]

end

/-! ### Many PUSHes -/

/-- Each PUSH lowers the stack pointer by one and leaves the record alone (rule R143). -/
theorem execAll_pushes (bytes : List Byte) (s : State) (h : bytes.all namesRegister = true) :
    ∃ t, execAll (bytes.map .push) s = some t ∧ t.sp = s.sp - BitVec.ofNat 8 bytes.length ∧ t.fault = s.fault := by
  induction bytes generalizing s with
  | nil => exact ⟨s, rfl, (BitVec.sub_zero s.sp).symm, rfl⟩
  | cons a rest ih =>
    rw [List.all_cons, Bool.and_eq_true] at h
    obtain ⟨ra, ha⟩ := namesRegister_iff.mp h.1
    obtain ⟨t, hrun, hsp, hfault⟩ := ih (afterPush ra s) h.2
    refine ⟨t, ?_, ?_, hfault.trans (quiet_pushAction s ra).fault⟩
    · rw [List.map_cons, execAll_cons (exec_push s ha)]
      exact hrun
    · rw [hsp, sp_afterPush, List.length_cons]
      bv_omega

/-! ### A JMP to its own address -/

/-- A step that leads back to its own state never ends the run. -/
theorem run_of_step_self (M : Host.Core) {s : M.State} (h : M.step s = .next s) (n : Nat) : M.run n s = .next s := by
  induction n with
  | zero => rfl
  | succ n ih => simp only [run_succ, h, ih]

/-- A JMP to its own address leaves the state as it is (rule R153). -/
theorem step_jmp_self {ra : RegId} (hrun : s.status = .running) (hop : s.memRead s.pc = Opcode.jmp)
    (ha : Names (s.memRead (s.pc + 1)) ra) (htarget : s.readReg ra = s.pc) : step s = .next s := by
  have hd : decode (fetch s) = .ok (.jmp (s.memRead (s.pc + 1))) := by
    rw [fetch, hop]
    exact roundTrip (.jmp _) _ 0
  rw [step_of_decode_ok hrun hd, exec_jmp s ha, jmpAction, htarget]
  rfl

end Sys2Proof.Machine

open Sys2Proof.Machine in
/-- Settles O35: PRN finds in the register what LDI wrote there. -/
theorem ldiThenPrnEmitsTheImmediate : Obligations.LdiThenPrnEmitsTheImmediate := by
  intro a imm s hlegal
  obtain ⟨ra, ha⟩ := namesRegister_iff.mp hlegal
  refine ⟨_, execAll_pair (exec_ldi s ha imm) (exec_prn _ ha), ?_, BitVec.add_assoc s.pc 3 2⟩
  exact congrArg (fun byte => s.output ++ [byte]) (readReg_writeReg_same s ra imm)

open Sys2Proof.Machine in
/-- Settles O46: the POP finds the pushed byte in the cell below and undoes the decrement, also where it loads R7. -/
theorem pushThenPopRestores : Obligations.PushThenPopRestores := fun _ ra s ha =>
  ⟨_, execAll_push_pop s ha ha, onlyChanges_afterPushPop s ra ra fun r _ => readReg_afterPushPop_same s ra r,
    (memRead_afterPushPop s ra ra (s.sp - 1)).trans (if_pos rfl), BitVec.add_assoc s.pc 2 2⟩

open Sys2Proof.Machine in
/-- Settles O47: each case is the register's value after the POP, for R7 or another register on either side. -/
theorem pushThenPopElsewhereCopies : Obligations.PushThenPopElsewhereCopies := by
  intro a c ra rc s ha hc
  have hread := readReg_afterPushPop s ra rc
  have hsp : (afterPushPop ra rc s).sp = if rc = 7 then pushedByte ra s + 1 else s.sp := hread 7
  have hcopy (hrc : rc ≠ 7) : (afterPushPop ra rc s).readReg rc = pushedByte ra s := by
    rw [hread, if_neg hrc.symm, if_pos rfl]
  refine ⟨_, execAll_push_pop s ha hc, fun hra hrc => ⟨?_, ?_⟩, fun hra hrc => ⟨?_, ?_⟩, fun hra hrc => ?_,
    onlyChanges_afterPushPop s ra rc fun r => readReg_afterPushPop_other s ra rc⟩
  · rw [hcopy hrc, pushedByte, if_neg hra]
  · rw [hsp, if_neg hrc]
  · rw [hcopy hrc, pushedByte, if_pos hra]
  · rw [hsp, if_neg hrc]
  · rw [hsp, if_pos hrc, pushedByte, if_neg hra]

open Sys2Proof.Machine in
/-- Settles O48, by induction on the list of pushed registers. -/
theorem pushesLowerTheStackPointer : Obligations.PushesLowerTheStackPointer := by
  intro bytes s hlegal
  obtain ⟨t, hrun, hsp, hfault⟩ := execAll_pushes bytes s hlegal
  exact ⟨t, hrun, hsp, hfault, fun hreset => by rw [hsp, hreset]; rfl⟩

open Sys2Proof.Machine in
/-- Settles O52: the RET loads the return address from the cell that the CALL wrote, and its increment undoes the CALL's
decrement. -/
theorem retAfterCallResumesBehindIt : Obligations.RetAfterCallResumesBehindIt := by
  intro a s hlegal
  obtain ⟨ra, ha⟩ := namesRegister_iff.mp hlegal
  have hsp : (callAction 2 ra s).sp = s.sp - 1 := readReg_callAction s 2 ra 7
  refine ⟨_, exec_call s ha, fun u husp hucell => ⟨_, exec_ret u, ?_, ?_⟩⟩
  · rw [retAction_pc, husp, hucell, hsp, memRead_callAction, if_pos rfl]
  · have hincremented : (retAction u).sp = u.sp + 1 := readReg_retAction u 7
    rw [hincremented, husp, hsp]
    exact BitVec.sub_add_cancel _ _

open Sys2Proof Sys2Proof.Machine in
/-- Settles O53: the step leads back to its own state, so by induction every number of steps does. -/
theorem jumpToItselfNeverEnds : Obligations.JumpToItselfNeverEnds := fun _ _ hrun hop ha htarget =>
  run_of_step_self core (step_jmp_self hrun hop ha htarget)
end
